-- ==== Sys2Proof/Word.lean ====
section
/-! DEFINITION. The word types of MN-CORE: 64-bit words, 32-bit command words, 4-bit register indices.

Bit 0 of a word is its least-significant bit (00_scope.md R7); no word is signed (R8). -/

namespace Sys2Proof

/-- The 64-bit unsigned word, the unit of every value register, of `imm`, `out` and REM (00_scope.md R6). -/
abbrev Word := BitVec 64

/-- The 32-bit command word (30_encoding.md R70, R71). -/
abbrev CmdWord := BitVec 32

/-- The index of a value register, V0 to V15; every index names a register (30_encoding.md R72). -/
abbrev Reg := Fin 16

end Sys2Proof
end

