-- ==== Sys2Proof/Machine/Value.lean ====
section
/-! DEFINITION. The value functions of word sequences (00_scope.md R7, R9; 10_state.md R28 to R32). They hold no state.

A sequence is a list of words, most-significant first. The functions are total: on the empty sequence, which no register
ever holds (10_state.md R22), each answers what its own recursion gives (log entry 11). -/

namespace Sys2Proof.Machine

/-- `lw(w, i)`, the word at least-significant index `i`, 0 beyond the length (00_scope.md R7). -/
def lw (w : List Word) (i : Nat) : Word :=
  if i < w.length then w.getD (w.length - 1 - i) 0 else 0

/-- The sequence `[f (n-1), ..., f 0]`: how the family rules write a result from its words `r_i`. -/
def collect (f : Nat → Word) : Nat → List Word
  | 0 => []
  | n + 1 => f n :: collect f n

/-- `words_n(v)`, the sequence of length `n` whose word at index `i` is `(v >> 64i) mod 2^64` (00_scope.md R9). -/
def wordsN (n v : Nat) : List Word := collect (fun i => BitVec.ofNat 64 (v / 2 ^ (64 * i))) n

/-- `mag(w)`, the magnitude (10_state.md R28): the leading word weighs 2^64 to the number of words after it. -/
def mag : List Word → Nat
  | [] => 0
  | x :: xs => x.toNat * 2 ^ (64 * xs.length) + mag xs

/-- `trim(w)`: remove leading zero words until one word remains or the leading word is nonzero (10_state.md R29). -/
def trim : List Word → List Word
  | [] => []
  | [x] => [x]
  | x :: y :: ys => if x = 0 then trim (y :: ys) else x :: y :: ys

/-- A sequence is normalized when it has one word or its leading word is nonzero (10_state.md R30). -/
def normalized (w : List Word) : Bool := w.length == 1 || w.headD 0 != 0

/-- The comparison of the words below index `n`, from the most-significant end (10_state.md R31). -/
def cmpFrom (u w : List Word) : Nat → Ordering
  | 0 => .eq
  | i + 1 =>
    if lw w i < lw u i then .gt
    else if lw u i < lw w i then .lt
    else cmpFrom u w i

/-- `cmp(u, w)`, the word-level magnitude comparison, which tolerates leading zero words (10_state.md R31). -/
def cmpWords (u w : List Word) : Ordering := cmpFrom u w (max u.length w.length)

/-- `bitlen(v)`: 0 for 0, else the position of the highest set bit plus one (10_state.md R32). -/
def bitlen (v : Nat) : Nat := if v = 0 then 0 else Nat.log2 v + 1

/-- `bitscanForward(w)`, the number of leading zero bits, all of them for a zero value (10_state.md R32). -/
def bitscanForward (w : List Word) : Nat := 64 * w.length - bitlen (mag w)

/-- The largest `t` up to the bound with `m mod 2^t = 0`. -/
def trailingZeros (m : Nat) : Nat → Nat
  | 0 => 0
  | t + 1 => if m % 2 ^ (t + 1) = 0 then t + 1 else trailingZeros m t

/-- `bitscanReverse(w)`, the number of trailing zero bits, all of them for a zero value (10_state.md R32). -/
def bitscanReverse (w : List Word) : Nat := trailingZeros (mag w) (64 * w.length)

end Sys2Proof.Machine
end

