-- ==== Sys2Proof/Machine/Flags.lean ====
section
/-! DEFINITION. The word primitives with their carry and borrow (00_scope.md R10), and the word steps built from them.

MN-CORE has no flags register (10_state.md R33): a carry or a borrow lives inside one command, as the Bool the step of one
word hands to the next. -/

namespace Sys2Proof.Machine

/-- `add_with_carry(a, b)`: the wrapped sum, and whether the true sum left the word (00_scope.md R10). -/
def addWithCarry (a b : Word) : Word × Bool :=
  (BitVec.ofNat 64 (a.toNat + b.toNat), decide (2 ^ 64 ≤ a.toNat + b.toNat))

/-- `sub_with_borrow(a, b)`: the wrapped difference, and whether `a < b` (00_scope.md R10). -/
def subWithBorrow (a b : Word) : Word × Bool :=
  (BitVec.ofNat 64 (2 ^ 64 + a.toNat - b.toNat), decide (a.toNat < b.toNat))

/-- `widen_mul(a, b)`: the high and the low word of the product (00_scope.md R10). -/
def widenMul (a b : Word) : Word × Word :=
  (BitVec.ofNat 64 (a.toNat * b.toNat / 2 ^ 64), BitVec.ofNat 64 (a.toNat * b.toNat))

/-- `divmod_wide(N, d)`: the quotient and the remainder of a 128-bit numerator by a word (00_scope.md R10). The rules call it
only with `d > 0` and a quotient below 2^64; outside that the value is never used (log entry 7). -/
def divmodWide (n : BitVec 128) (d : Word) : Word × Word :=
  (BitVec.ofNat 64 (n.toNat / d.toNat), BitVec.ofNat 64 (n.toNat % d.toNat))

/-- A carry or a borrow as the word the second primitive step takes. -/
def carryWord (c : Bool) : Word := if c then 1 else 0

/-- One word of the adder: the two words, then the incoming carry, each by one primitive step; the carries are ORed
(41_add_sub.md R131). -/
def addStep (a b : Word) (c : Bool) : Word × Bool :=
  let first := addWithCarry a b
  let second := addWithCarry first.1 (carryWord c)
  (second.1, first.2 || second.2)

/-- One word of the subtractor, in the same two steps (41_add_sub.md R133). -/
def subStep (a b : Word) (br : Bool) : Word × Bool :=
  let first := subWithBorrow a b
  let second := subWithBorrow first.1 (carryWord br)
  (second.1, first.2 || second.2)

end Sys2Proof.Machine
end

