-- ==== Sys2Proof/Config.lean ====
section
/-! DEFINITION. What an implementation of MN-CORE fixes, and what the spec leaves open.

Every `opaque` constant here has no body: no proof can learn which value it has, so a theorem about the model holds
for every value the constant could have. -/

namespace Sys2Proof

/-- The orders in which an integration may lay the bytes of a port word on a byte-addressed bus (20_memory.md R52). -/
inductive ByteOrder where
  /-- The least-significant byte lies lowest. -/
  | little
  /-- The most-significant byte lies lowest. -/
  | big
deriving DecidableEq, Repr, Inhabited

/-- Where the parameter MAXW stands in its range, counted from 2: one value for each MAXW that 00_scope.md R6 allows. -/
opaque Config.maxwIndex : Fin 4294967294

/-- The parameter MAXW, the maximum number of words of a value register, `2 <= MAXW <= 2^32 - 1`
(00_scope.md R6, 92_eei_decisions.md D4). It is open: nothing but its range is known (log entry 1). -/
def Config.maxw : BitVec 32 := BitVec.ofNat 32 (Config.maxwIndex.val + 2)

/-- The leading word a value register happens to hold at reset: a free value (log entry 2). -/
opaque Config.resetHead : Reg → Word

/-- The words after the leading one that a value register happens to hold at reset: a free value (log entry 2). -/
opaque Config.resetTail : Reg → List Word

/-- The sequence a value register holds at reset, before anything is written to it. 70_reset_and_hazards.md R261 says it is
unspecified, and every sequence of 1 to MAXW words is possible here, since both parts are free values. It is unreadable
while the valid bit is 0 (10_state.md R24). DESIGN CHOICE (log entry 2), safe: any sequence the machine may hold. -/
def Config.resetWords (r : Reg) : List Word :=
  (Config.resetHead r :: Config.resetTail r).take Config.maxw.toNat

/-- The parameter HOST_BUS_BYTE_ORDER: the order of the bytes of a port word on an integration's byte-addressed bus
(20_memory.md R52, 92_eei_decisions.md D25). No rule of the block reads it; the integration's byte helpers of Decode.lean
take it as an argument (log entry 6). -/
opaque Config.hostBusByteOrder : ByteOrder

end Sys2Proof
end

