-- ==== Sys2Proof/Syntax.lean ====
section
/-! DEFINITION. The commands of MN-CORE, one constructor for each row of the opcode map (30_encoding.md R75).

Operands are named as the rules name them: `rd` the destination register, `rs1` the receiver, `rs2` the operand, and `imm`
the 64-bit immediate, present only in the forms that use it (30_encoding.md R73, R74). The operand types carry every bound
the format has, so no term of `Instr` has an operand out of range. -/

namespace Sys2Proof

/-- A command of MN-CORE (30_encoding.md R75). -/
inductive Instr where
  /-- NOP, form N (40_construct_read.md R100). -/
  | nop
  /-- LDI, form DI: load a one-word value (40_construct_read.md R101). -/
  | ldi (rd : Reg) (imm : Word)
  /-- APPW, form DI: append a least-significant word (40_construct_read.md R102). -/
  | appw (rd : Reg) (imm : Word)
  /-- MOV, form DS: copy a value register (40_construct_read.md R103). -/
  | mov (rd rs1 : Reg)
  /-- RDW, form SI: read the word at a least-significant index (40_construct_read.md R104). -/
  | rdw (rs1 : Reg) (imm : Word)
  /-- RDLEN, form S: read a word count (40_construct_read.md R105). -/
  | rdlen (rs1 : Reg)
  /-- RDSTAT, form N: read STATUS (40_construct_read.md R106). -/
  | rdstat
  /-- RDREM, form N: read REM (40_construct_read.md R107). -/
  | rdrem
  /-- ADD, form DSS: multi-word addition (41_add_sub.md R131). -/
  | add (rd rs1 rs2 : Reg)
  /-- SUB, form DSS: multi-word subtraction (41_add_sub.md R133). -/
  | sub (rd rs1 rs2 : Reg)
  /-- SHL, form DSI: fixed-width left bit shift (42_shift.md R151). -/
  | shl (rd rs1 : Reg) (imm : Word)
  /-- SHR, form DSI: fixed-width right bit shift (42_shift.md R152). -/
  | shr (rd rs1 : Reg) (imm : Word)
  /-- SHLX, form DSI: expanding left bit shift (42_shift.md R154). -/
  | shlx (rd rs1 : Reg) (imm : Word)
  /-- CSHL, form DSI: word-granularity left shift (42_shift.md R155). -/
  | cshl (rd rs1 : Reg) (imm : Word)
  /-- CSHR, form DSI: word-granularity right shift (42_shift.md R156). -/
  | cshr (rd rs1 : Reg) (imm : Word)
  /-- MUL, form DSS: multi-word multiplication (43_multiply.md R180). -/
  | mul (rd rs1 rs2 : Reg)
  /-- DIVW, form DSI: quotient by one word (44_divide.md R191). -/
  | divw (rd rs1 : Reg) (imm : Word)
  /-- MODW, form DSI: remainder by one word (44_divide.md R193). -/
  | modw (rd rs1 : Reg) (imm : Word)
  /-- NORM, form DS: trim leading zero words (45_normalize.md R210). -/
  | norm (rd rs1 : Reg)
deriving DecidableEq, Repr

end Sys2Proof
end

