-- ==== Sys2Proof/WellFormed.lean ====
section
/-! DEFINITION. Which field records are well formed: the operand forms of 30_encoding.md R73 and the checks of R72 and R76
that a field a form does not use, and the reserved field, are zero.

A term of `Instr` needs no check of its own: a register index is a `Reg` and an immediate a `Word`, and R72 and R74 allow
every value of both. What can be ill formed is the command word the host sends, so the checks are over its fields. -/

namespace Sys2Proof

/-- What the host presents on the command port in one transaction (30_encoding.md R70). -/
structure Request where
  /-- The command word. -/
  cmd : CmdWord
  /-- The immediate operand. -/
  imm : Word
deriving DecidableEq, Repr

/-- The five fields of the one command format (30_encoding.md R71, R72). -/
structure Fields where
  /-- `OPC`, cmd[31:24]. -/
  opc : BitVec 8
  /-- `RD`, cmd[23:20]. -/
  rd : BitVec 4
  /-- `RS1`, cmd[19:16]. -/
  rs1 : BitVec 4
  /-- `RS2`, cmd[15:12]. -/
  rs2 : BitVec 4
  /-- `RSV`, cmd[11:0]. -/
  rsv : BitVec 12
deriving DecidableEq, Repr

/-- The operand forms (30_encoding.md R73). -/
inductive Form where
  /-- No operand. -/
  | n
  /-- `vd, imm`. -/
  | di
  /-- `vd, vs1`. -/
  | ds
  /-- `vd, vs1, imm`. -/
  | dsi
  /-- `vd, vs1, vs2`. -/
  | dss
  /-- `vs1`. -/
  | s
  /-- `vs1, imm`. -/
  | si
deriving DecidableEq, Repr

/-- The form uses the field `RD` (30_encoding.md R73). -/
def Form.usesRd : Form → Bool
  | .di | .ds | .dsi | .dss => true
  | .n | .s | .si => false

/-- The form uses the field `RS1` (30_encoding.md R73). -/
def Form.usesRs1 : Form → Bool
  | .ds | .dsi | .dss | .s | .si => true
  | .n | .di => false

/-- The form uses the field `RS2` (30_encoding.md R73). -/
def Form.usesRs2 : Form → Bool
  | .dss => true
  | .n | .di | .ds | .dsi | .s | .si => false

/-- The form uses `imm` (30_encoding.md R73). -/
def Form.usesImm : Form → Bool
  | .di | .dsi | .si => true
  | .n | .ds | .dss | .s => false

/-- Why a command word is refused. The block answers each of these with the one response ILLEGAL (60_exceptions.md R222);
the finer names are the model's (log entry 12). `badLength` belongs to the integration's bus, never to the block. -/
inductive DecodeError where
  /-- The opcode is in no row of the map (30_encoding.md R77). -/
  | reservedOpcode (opc : BitVec 8)
  /-- `RSV` is not zero (R72). -/
  | reservedField (rsv : BitVec 12)
  /-- `RD` is not zero and the form does not use it (R72). -/
  | unusedRd (rd : BitVec 4)
  /-- `RS1` is not zero and the form does not use it (R72). -/
  | unusedRs1 (rs1 : BitVec 4)
  /-- `RS2` is not zero and the form does not use it (R72). -/
  | unusedRs2 (rs2 : BitVec 4)
  /-- A bus transfer is not 4 bytes of command word and 8 bytes of immediate (log entry 6). -/
  | badLength
deriving DecidableEq, Repr

/-- The first field that keeps the record from being of the form, if there is one (30_encoding.md R72, R73, R76). -/
def Fields.violation (f : Fields) (form : Form) : Option DecodeError :=
  if f.rsv ≠ 0 then some (.reservedField f.rsv)
  else if !form.usesRd && f.rd ≠ 0 then some (.unusedRd f.rd)
  else if !form.usesRs1 && f.rs1 ≠ 0 then some (.unusedRs1 f.rs1)
  else if !form.usesRs2 && f.rs2 ≠ 0 then some (.unusedRs2 f.rs2)
  else none

/-- The record is of the form: every field the form does not use, and `RSV`, is zero (30_encoding.md R73). -/
abbrev Fields.WellFormed (f : Fields) (form : Form) : Prop := f.violation form = none

end Sys2Proof
end

