-- ==== Sys2Proof/Decode.lean ====
section
/-! DEFINITION. Decoding and encoding of MN-CORE's command words (30_encoding.md R71-R79). -/

namespace Sys2Proof

/-- The fields of a command word (30_encoding.md R71, R72). -/
def cmdFields (cmd : CmdWord) : Fields where
  opc := cmd.extractLsb' 24 8
  rd := cmd.extractLsb' 20 4
  rs1 := cmd.extractLsb' 16 4
  rs2 := cmd.extractLsb' 12 4
  rsv := cmd.extractLsb' 0 12

/-- The command word with the given fields (30_encoding.md R71). -/
def Fields.word (f : Fields) : CmdWord := f.opc ++ f.rd ++ f.rs1 ++ f.rs2 ++ f.rsv

/-- What the opcode map says of an opcode: its form, and the command its fields and immediate make. -/
structure OpcodeEntry where
  /-- The operand form of the row. -/
  form : Form
  /-- The command, from `rd`, `rs1`, `rs2` and `imm`; a form leaves out what it does not use. -/
  build : Reg → Reg → Reg → Word → Instr

/-- The opcode map by opcode: the columns OPC, mnemonic and form of 30_encoding.md R75; every other opcode is reserved
(R77). -/
def opcodeEntry (opc : BitVec 8) : Option OpcodeEntry :=
  match opc with
  | 0x00#8 => some ⟨.n, fun _ _ _ _ => .nop⟩
  | 0x01#8 => some ⟨.di, fun rd _ _ imm => .ldi rd imm⟩
  | 0x02#8 => some ⟨.di, fun rd _ _ imm => .appw rd imm⟩
  | 0x03#8 => some ⟨.ds, fun rd rs1 _ _ => .mov rd rs1⟩
  | 0x08#8 => some ⟨.si, fun _ rs1 _ imm => .rdw rs1 imm⟩
  | 0x09#8 => some ⟨.s, fun _ rs1 _ _ => .rdlen rs1⟩
  | 0x0A#8 => some ⟨.n, fun _ _ _ _ => .rdstat⟩
  | 0x0B#8 => some ⟨.n, fun _ _ _ _ => .rdrem⟩
  | 0x10#8 => some ⟨.dss, fun rd rs1 rs2 _ => .add rd rs1 rs2⟩
  | 0x11#8 => some ⟨.dss, fun rd rs1 rs2 _ => .sub rd rs1 rs2⟩
  | 0x20#8 => some ⟨.dsi, fun rd rs1 _ imm => .shl rd rs1 imm⟩
  | 0x21#8 => some ⟨.dsi, fun rd rs1 _ imm => .shr rd rs1 imm⟩
  | 0x22#8 => some ⟨.dsi, fun rd rs1 _ imm => .shlx rd rs1 imm⟩
  | 0x23#8 => some ⟨.dsi, fun rd rs1 _ imm => .cshl rd rs1 imm⟩
  | 0x24#8 => some ⟨.dsi, fun rd rs1 _ imm => .cshr rd rs1 imm⟩
  | 0x30#8 => some ⟨.dss, fun rd rs1 rs2 _ => .mul rd rs1 rs2⟩
  | 0x40#8 => some ⟨.dsi, fun rd rs1 _ imm => .divw rd rs1 imm⟩
  | 0x41#8 => some ⟨.dsi, fun rd rs1 _ imm => .modw rd rs1 imm⟩
  | 0x50#8 => some ⟨.ds, fun rd rs1 _ _ => .norm rd rs1⟩
  | _ => none

/-- The command a command word and an immediate stand for, or why the word is illegal. `imm` never makes a command illegal
(30_encoding.md R76). -/
def decode (cmd : CmdWord) (imm : Word) : Except DecodeError Instr :=
  match opcodeEntry (cmdFields cmd).opc with
  | none => .error (.reservedOpcode (cmdFields cmd).opc)
  | some entry =>
    match (cmdFields cmd).violation entry.form with
    | some why => .error why
    | none => .ok (entry.build (cmdFields cmd).rd.toFin (cmdFields cmd).rs1.toFin (cmdFields cmd).rs2.toFin imm)

/-- A register index as the 4-bit field that holds it (30_encoding.md R72). -/
def regField (r : Reg) : BitVec 4 := BitVec.ofFin r

/-- The fields a command is encoded with; a field its form does not use is zero (30_encoding.md R73, R75). -/
def Instr.fields : Instr → Fields
  | .nop => ⟨0x00, 0, 0, 0, 0⟩
  | .ldi rd _ => ⟨0x01, regField rd, 0, 0, 0⟩
  | .appw rd _ => ⟨0x02, regField rd, 0, 0, 0⟩
  | .mov rd rs1 => ⟨0x03, regField rd, regField rs1, 0, 0⟩
  | .rdw rs1 _ => ⟨0x08, 0, regField rs1, 0, 0⟩
  | .rdlen rs1 => ⟨0x09, 0, regField rs1, 0, 0⟩
  | .rdstat => ⟨0x0A, 0, 0, 0, 0⟩
  | .rdrem => ⟨0x0B, 0, 0, 0, 0⟩
  | .add rd rs1 rs2 => ⟨0x10, regField rd, regField rs1, regField rs2, 0⟩
  | .sub rd rs1 rs2 => ⟨0x11, regField rd, regField rs1, regField rs2, 0⟩
  | .shl rd rs1 _ => ⟨0x20, regField rd, regField rs1, 0, 0⟩
  | .shr rd rs1 _ => ⟨0x21, regField rd, regField rs1, 0, 0⟩
  | .shlx rd rs1 _ => ⟨0x22, regField rd, regField rs1, 0, 0⟩
  | .cshl rd rs1 _ => ⟨0x23, regField rd, regField rs1, 0, 0⟩
  | .cshr rd rs1 _ => ⟨0x24, regField rd, regField rs1, 0, 0⟩
  | .mul rd rs1 rs2 => ⟨0x30, regField rd, regField rs1, regField rs2, 0⟩
  | .divw rd rs1 _ => ⟨0x40, regField rd, regField rs1, 0, 0⟩
  | .modw rd rs1 _ => ⟨0x41, regField rd, regField rs1, 0, 0⟩
  | .norm rd rs1 => ⟨0x50, regField rd, regField rs1, 0, 0⟩

/-- The operand form of a command (30_encoding.md R75). -/
def Instr.form : Instr → Form
  | .nop | .rdstat | .rdrem => .n
  | .ldi _ _ | .appw _ _ => .di
  | .mov _ _ | .norm _ _ => .ds
  | .rdw _ _ => .si
  | .rdlen _ => .s
  | .add _ _ _ | .sub _ _ _ | .mul _ _ _ => .dss
  | .shl _ _ _ | .shr _ _ _ | .shlx _ _ _ | .cshl _ _ _ | .cshr _ _ _ | .divw _ _ _ | .modw _ _ _ => .dsi

/-- The immediate a command is sent with; a form without `imm` assembles with `imm = 0` (30_encoding.md R80). -/
def Instr.immediate : Instr → Word
  | .ldi _ imm | .appw _ imm | .rdw _ imm => imm
  | .shl _ _ imm | .shr _ _ imm | .shlx _ _ imm | .cshl _ _ imm | .cshr _ _ imm | .divw _ _ imm | .modw _ _ imm => imm
  | .nop | .rdstat | .rdrem | .mov _ _ | .norm _ _ | .rdlen _ => 0
  | .add _ _ _ | .sub _ _ _ | .mul _ _ _ => 0

/-- The words of a command on the port (30_encoding.md R71, R80). -/
def encode (i : Instr) : Request := ⟨i.fields.word, i.immediate⟩

/-! ### The opcode map as patterns

The second reading of 30_encoding.md R75, by its columns `match` and `mask`, which R76 and the command cycle
(60_exceptions.md R229) speak of. -/

/-- A row of the opcode map: the pattern a command word shows under the mask. -/
structure Pattern where
  /-- The column OPC. -/
  opc : BitVec 8
  /-- The column `match`. -/
  value : CmdWord
  /-- The column `mask`. -/
  mask : CmdWord
deriving DecidableEq, Repr

/-- The rows of 30_encoding.md R75. -/
def opcodeMap : List Pattern :=
  [⟨0x00, 0x00000000, 0xFFFFFFFF⟩, ⟨0x01, 0x01000000, 0xFF0FFFFF⟩, ⟨0x02, 0x02000000, 0xFF0FFFFF⟩,
   ⟨0x03, 0x03000000, 0xFF00FFFF⟩, ⟨0x08, 0x08000000, 0xFFF0FFFF⟩, ⟨0x09, 0x09000000, 0xFFF0FFFF⟩,
   ⟨0x0A, 0x0A000000, 0xFFFFFFFF⟩, ⟨0x0B, 0x0B000000, 0xFFFFFFFF⟩, ⟨0x10, 0x10000000, 0xFF000FFF⟩,
   ⟨0x11, 0x11000000, 0xFF000FFF⟩, ⟨0x20, 0x20000000, 0xFF00FFFF⟩, ⟨0x21, 0x21000000, 0xFF00FFFF⟩,
   ⟨0x22, 0x22000000, 0xFF00FFFF⟩, ⟨0x23, 0x23000000, 0xFF00FFFF⟩, ⟨0x24, 0x24000000, 0xFF00FFFF⟩,
   ⟨0x30, 0x30000000, 0xFF000FFF⟩, ⟨0x40, 0x40000000, 0xFF00FFFF⟩, ⟨0x41, 0x41000000, 0xFF00FFFF⟩,
   ⟨0x50, 0x50000000, 0xFF00FFFF⟩]

/-- A word selects a row when it shows the row's pattern under the row's mask (30_encoding.md R75). -/
def Pattern.selects (p : Pattern) (cmd : CmdWord) : Bool := cmd &&& p.mask == p.value

/-! ### The opcode table's numbering

An instruction of the table is the command word in bits 31..0 and the immediate above it in bits 95..32 (log entry 8). -/

/-- The request whose bits are `w`, of which only the lowest `nbits` are given and the rest are 0. -/
def tableRequest (nbits w : Nat) : Request :=
  let bits := w % 2 ^ nbits
  ⟨BitVec.ofNat 32 bits, BitVec.ofNat 64 (bits / 2 ^ 32)⟩

/-- The command the decoder reads from an instruction whose bits are `w` as spec/opcode_table.json numbers them. -/
def decodeTableWord (nbits w : Nat) : Option Instr :=
  (decode (tableRequest nbits w).cmd (tableRequest nbits w).imm).toOption

/-! ### An integration's byte-addressed bus

20_memory.md R52 leaves the bytes of a port word to the integration, in the order the parameter HOST_BUS_BYTE_ORDER names.
Nothing of the block reads these definitions (log entry 6). -/

/-- The `n` bytes of a number, the least-significant first. -/
def leBytes : Nat → Nat → List (BitVec 8)
  | 0, _ => []
  | n + 1, x => BitVec.ofNat 8 x :: leBytes n (x / 256)

/-- The number whose bytes these are, the least-significant first. -/
def ofLeBytes : List (BitVec 8) → Nat
  | [] => 0
  | b :: bs => b.toNat + 256 * ofLeBytes bs

/-- The `n` bytes of a port word at rising bus addresses, in the byte order. -/
def busBytes (order : ByteOrder) (n x : Nat) : List (BitVec 8) :=
  match order with
  | .little => leBytes n x
  | .big => (leBytes n x).reverse

/-- The port word whose bytes stand at rising bus addresses in the byte order. -/
def ofBusBytes (order : ByteOrder) (bs : List (BitVec 8)) : Nat :=
  match order with
  | .little => ofLeBytes bs
  | .big => ofLeBytes bs.reverse

/-- Decoding from the bytes of the two port words, total on any bytes: other than 4 bytes of command word and 8 of
immediate is refused by name. -/
def decodeBus (order : ByteOrder) (cmdBytes immBytes : List (BitVec 8)) : Except DecodeError Instr :=
  if cmdBytes.length = 4 ∧ immBytes.length = 8 then
    decode (BitVec.ofNat 32 (ofBusBytes order cmdBytes)) (BitVec.ofNat 64 (ofBusBytes order immBytes))
  else .error .badLength

end Sys2Proof
end

