-- ==== Sys2Proof/Machine/State.lean ====
section
/-! DEFINITION. The state of MN-CORE as plain data (10_state.md R20), the state after reset (70_reset_and_hazards.md R261),
and the reasons a step can stop.

Beside the spec's own state the model holds the command port: what the host will do next and the last response it got
(30_encoding.md R70; log entries 3 and 4). -/

namespace Sys2Proof.Machine

/-- A value register: its sequence, most-significant word first, and its valid bit (10_state.md R20, R22). -/
structure VReg where
  /-- `V[r].w`; it may have leading zero words. -/
  words : List Word
  /-- `V[r].valid`; while it is false no command reads `words` (10_state.md R24). -/
  valid : Bool
deriving DecidableEq, Repr

/-- The causes for which a command fails (60_exceptions.md R220, R222 to R226). -/
inductive Cause where
  /-- The command word matches no row of the opcode map (R222). -/
  | illegal
  /-- A source register is not valid (R223). -/
  | uninit
  /-- SUB with a receiver below the operand (R224). -/
  | subUnderflow
  /-- DIVW or MODW by zero (R225). -/
  | divZero
  /-- The result would need more than MAXW words (R226). -/
  | capacity
deriving DecidableEq, Repr

/-- A response code (60_exceptions.md R220). The reserved codes 6 to 15 are never returned and have no term here. -/
inductive Resp where
  /-- The command completed. -/
  | ok
  /-- The command failed and wrote nothing but STATUS. -/
  | failed (cause : Cause)
deriving DecidableEq, Repr

/-- The fields of STATUS that have storage of their own (10_state.md R27). VALID is the valid bits of the value registers
and the reserved bits always read 0, so neither is stored a second time (log entry 10). -/
structure Status where
  /-- FAULT, bit 0: a command has failed since reset. Sticky. -/
  fault : Bool
  /-- FIRST_ERR, bits 7..4: the code of the first failed command since reset, OK while FAULT is 0. Sticky. -/
  firstErr : Resp
  /-- LAST_RESP, bits 11..8: the code of the most recently completed command. -/
  lastResp : Resp
  /-- MAXW, bits 63..32: the capacity of every value register in words. Hardwired: no command writes it. -/
  maxw : BitVec 32
deriving DecidableEq, Repr

/-- What the block returns for a command (30_encoding.md R70, 60_exceptions.md R221). -/
structure Response where
  /-- The response code. -/
  code : Resp
  /-- The `out` word. -/
  out : Word
deriving DecidableEq, Repr

/-- What the host does next (30_encoding.md R70, 70_reset_and_hazards.md R260). -/
inductive HostInput where
  /-- The host issues a command. -/
  | command (q : Request)
  /-- The host asserts reset, abandoning the command in progress, if there is one (93_implementation_defined.md U8). -/
  | reset (abandoned : Option Request)
deriving DecidableEq, Repr

/-- The state of the machine. The first three fields are the architectural state, exactly that of 10_state.md R20; the last
two are the model's view of the command port. -/
structure State where
  /-- The sixteen value registers V0 to V15. -/
  v : Vector VReg 16
  /-- REM, the remainder of the last successful DIVW or MODW (10_state.md R25). -/
  rem : Word
  /-- STATUS (10_state.md R27). -/
  status : Status
  /-- The response to the last command, none when no response has been returned since reset (log entry 4). -/
  response : Option Response
  /-- What the host will do, the next input first (log entry 3). -/
  inputs : List HostInput
deriving DecidableEq, Repr

/-- The reasons for which the machine stops with a fault. There is none: a failure of MN-CORE is a response code, after which
the block goes on (60_exceptions.md R230, R231), so no step of the model raises a fault. -/
inductive Fault
deriving DecidableEq, Repr

/-- The reasons for which the model refuses an instruction. -/
inductive Refusal where
  /-- An instruction the model gives no meaning. Raised only by a refused arm of `exec`, of which there is none. Safe: the
  model stops where the machine goes on. -/
  | notModelled (mnemonic : String)
deriving DecidableEq, Repr

/-- A value register after reset: its valid bit is 0 and its sequence unspecified (70_reset_and_hazards.md R261; log entry 2). -/
def VReg.reset (r : Reg) : VReg := ⟨Config.resetWords r, false⟩

/-- STATUS after reset, `zext_64(MAXW) << 32` (70_reset_and_hazards.md R261). -/
def Status.reset : Status := ⟨false, .ok, .ok, Config.maxw⟩

/-- The machine right after reset (70_reset_and_hazards.md R261), with no response returned and the host yet to act. -/
def State.reset : State where
  v := Vector.ofFn VReg.reset
  rem := 0
  status := Status.reset
  response := none
  inputs := []

end Sys2Proof.Machine
end

