-- ==== Sys2Proof/Machine/Ops.lean ====
section
/-! DEFINITION. The named operations over the state: the STATUS word, the effect of a command and the command cycle that
applies it (60_exceptions.md R229), reset (70_reset_and_hazards.md R260), and taking the host's next input.

MN-CORE takes no exceptions and so returns from none (60_exceptions.md R231, R232). What stands in their place is the failure
of a command: `State.respond` with a failing code, the one operation every failure goes through. -/

namespace Sys2Proof.Machine

/-- The number of a cause of failure (60_exceptions.md R220). -/
def Cause.number : Cause → BitVec 4
  | .illegal => 1
  | .uninit => 2
  | .subUnderflow => 3
  | .divZero => 4
  | .capacity => 5

/-- The 4-bit response code (60_exceptions.md R220). -/
def Resp.number : Resp → BitVec 4
  | .ok => 0
  | .failed c => c.number

/-- MAXW as a number of words (10_state.md R27). -/
def State.capacity (s : State) : Nat := s.status.maxw.toNat

/-- STATUS.VALID: bit `r` equals `V[r].valid` (10_state.md R27). -/
def State.validBits (s : State) : BitVec 16 := BitVec.ofFnLE fun r : Reg => s.v[r].valid

/-- The 64-bit word STATUS reads as (10_state.md R27). -/
def State.statusWord (s : State) : Word :=
  s.status.maxw ++ s.validBits ++ (0 : BitVec 4) ++ s.status.lastResp.number ++ s.status.firstErr.number
    ++ (0 : BitVec 3) ++ BitVec.ofBool s.status.fault

/-- The writes a command collects while it runs (60_exceptions.md R229): to a value register, to REM and to `out`. -/
structure Writes where
  /-- The write to a value register: which one, and its new sequence. -/
  reg : Option (Reg × List Word) := none
  /-- The write to REM. -/
  rem : Option Word := none
  /-- The `out` word, 0 unless the command sets it (R221). -/
  out : Word := 0
deriving DecidableEq, Repr

/-- What a command's pseudocode comes to: `raise E`, or the writes it collected (60_exceptions.md R229). -/
inductive Effect where
  /-- The command fails; every collected write is discarded. -/
  | raise (c : Cause)
  /-- The command completes. -/
  | commit (w : Writes)
deriving DecidableEq, Repr

/-- `V[r] <- w`: the whole sequence is replaced and the register becomes valid (10_state.md R23). -/
def State.writeReg (s : State) (r : Reg) (w : List Word) : State := { s with v := s.v.set r ⟨w, true⟩ }

/-- The collected writes applied (60_exceptions.md R229). -/
def State.apply (s : State) (w : Writes) : State :=
  let t := match w.reg with
    | none => s
    | some (r, ws) => s.writeReg r ws
  { t with rem := w.rem.getD t.rem }

/-- STATUS after a command that answers `code` (60_exceptions.md R229, R230): LAST_RESP is the code, and a failure sets the
sticky FAULT and, when it is the first, FIRST_ERR. -/
def Status.after (st : Status) (code : Resp) : Status :=
  match code with
  | .ok => { st with lastResp := .ok }
  | .failed c =>
    { st with
      fault := true
      firstErr := if st.fault then st.firstErr else .failed c
      lastResp := .failed c }

/-- The end of the command cycle: STATUS is updated and the response returned (60_exceptions.md R229). -/
def State.respond (s : State) (code : Resp) (out : Word) : State :=
  { s with status := s.status.after code, response := some ⟨code, out⟩ }

/-- The command cycle after decoding (60_exceptions.md R229): a failure discards every write and answers `out = 0`; otherwise
the writes are applied and the code is OK. -/
def State.cycle (s : State) : Effect → State
  | .raise c => s.respond (.failed c) 0
  | .commit w => (s.apply w).respond .ok w.out

/-- A command as one atomic step: its command cycle, which always has a next state. -/
def State.perform (s : State) (e : Effect) : Host.Outcome State Fault Refusal := .next (s.cycle e)

/-- The reset input: the reset state replaces the state, and what the host does afterwards is left as it is
(70_reset_and_hazards.md R260). -/
def State.takeReset (s : State) : State := { State.reset with inputs := s.inputs }

/-- What the host's next input asks of the block. -/
inductive Fetched where
  /-- Nothing runs: the host has done nothing, or asserted reset, or sent an illegal word, and this is the state after. -/
  | settled (s : State)
  /-- A legal command, to run on this state, from which the input has been taken. -/
  | command (i : Instr) (s : State)
deriving DecidableEq, Repr

/-- Take the host's next input. With none, the block holds its state (60_exceptions.md R240); reset replaces it; a command
word is decoded, and an illegal one answers ILLEGAL and changes nothing else (30_encoding.md R76). -/
def State.fetch (s : State) : Fetched :=
  match s.inputs with
  | [] => .settled s
  | .reset _ :: rest => .settled { s with inputs := rest }.takeReset
  | .command q :: rest =>
    match decode q.cmd q.imm with
    | .ok i => .command i { s with inputs := rest }
    | .error _ => .settled ({ s with inputs := rest }.cycle (.raise .illegal))

/-- The state with a command put before everything else the host will do, so that the next step runs it. -/
def State.issue (s : State) (q : Request) : State := { s with inputs := .command q :: s.inputs }

end Sys2Proof.Machine
end

