-- ==== Sys2Proof/Machine/Operands.lean ====
section
/-! DEFINITION. The operand forms as the meanings use them: reading a source register, naming a destination, and the two
readings of a shift amount (30_encoding.md R73, R74; 10_state.md R24, R26). -/

namespace Sys2Proof.Machine

/-- `require_valid(r)`, then the snapshot of `V[r].w` for the rest of the command (00_scope.md R9, 10_state.md R24, R26). -/
def State.source (s : State) (r : Reg) (rest : List Word → Effect) : Effect :=
  if s.v[r].valid then rest s.v[r].words else .raise .uninit

/-- Two sources, `rs1` checked before `rs2` (60_exceptions.md R223). -/
def State.sources (s : State) (rs1 rs2 : Reg) (rest : List Word → List Word → Effect) : Effect :=
  s.source rs1 fun a => s.source rs2 fun b => rest a b

/-- The command completes by `V[rd] <- w`. -/
def Effect.write (rd : Reg) (w : List Word) : Effect := .commit { reg := some (rd, w) }

/-- The command completes by `V[rd] <- w` and `REM <- r` (44_divide.md R191, R193). -/
def Effect.writeRem (rd : Reg) (w : List Word) (r : Word) : Effect := .commit { reg := some (rd, w), rem := some r }

/-- The command completes by `out <- v` (60_exceptions.md R221). -/
def Effect.answer (v : Word) : Effect := .commit { out := v }

/-- CAPACITY when `length` words are more than a register holds, else what follows, which is computed only then: a result
that does not fit may be too long to build (60_exceptions.md R226). -/
def State.within (s : State) (length : Nat) (rest : Unit → Effect) : Effect :=
  if s.capacity < length then .raise .capacity else rest ()

/-- The whole words of a bit shift amount, `q = imm div 64` (42_shift.md R150). -/
def wordPart (imm : Word) : Nat := imm.toNat / 64

/-- The remaining bits of a bit shift amount, `k = imm mod 64` (42_shift.md R150). -/
def bitPart (imm : Word) : Nat := imm.toNat % 64

end Sys2Proof.Machine
end

