-- ==== Sys2Proof/Machine/AddSub.lean ====
section
/-! DEFINITION. The multi-word adder and subtractor (41_add_sub.md R130 to R134). -/

namespace Sys2Proof.Machine

/-- The adder's words `[r_(n-1), ..., r_0]` after `n` word steps, and the carry that is left (41_add_sub.md R131). -/
def addSteps (a b : List Word) : Nat → List Word × Bool
  | 0 => ([], false)
  | i + 1 =>
    let before := addSteps a b i
    let step := addStep (lw a i) (lw b i) before.2
    (step.1 :: before.1, step.2)

/-- The subtractor's words after `n` word steps, and the borrow that is left (41_add_sub.md R133). -/
def subSteps (a b : List Word) : Nat → List Word × Bool
  | 0 => ([], false)
  | i + 1 =>
    let before := subSteps a b i
    let step := subStep (lw a i) (lw b i) before.2
    (step.1 :: before.1, step.2)

/-- ADD on two sequences: a carry past the most-significant word becomes one more word, valued 1, if the register can hold it
(41_add_sub.md R131). -/
def addEffect (s : State) (rd : Reg) (a b : List Word) : Effect :=
  let n := max a.length b.length
  let sum := addSteps a b n
  if sum.2 then s.within (n + 1) (fun _ => .write rd (1 :: sum.1)) else .write rd sum.1

/-- SUB on two sequences: the receiver keeps its length, and a receiver below the operand is rejected (41_add_sub.md R133). -/
def subEffect (rd : Reg) (a b : List Word) : Effect :=
  if cmpWords a b = .lt then .raise .subUnderflow else .write rd (subSteps a b a.length).1

/-- ADD (41_add_sub.md R131). -/
def execAdd (rd rs1 rs2 : Reg) (s : State) : Host.Outcome State Fault Refusal :=
  s.perform (s.sources rs1 rs2 fun a b => addEffect s rd a b)

/-- SUB (41_add_sub.md R133). -/
def execSub (rd rs1 rs2 : Reg) (s : State) : Host.Outcome State Fault Refusal :=
  s.perform (s.sources rs1 rs2 fun a b => subEffect rd a b)

end Sys2Proof.Machine
end

