-- ==== Sys2Proof/Machine/Divide.lean ====
section
/-! DEFINITION. The single-word divider frontend (44_divide.md R190 to R194). -/

namespace Sys2Proof.Machine

/-- The long-division walk from a carried remainder: each word is divided with the prior remainder above it, the quotient
word written back and the remainder carried on (44_divide.md R190). -/
def divWalkFrom (d : Word) : Word → List Word → List Word × Word
  | r, [] => ([], r)
  | r, x :: xs =>
    let step := divmodWide (r ++ x) d
    let rest := divWalkFrom d step.2 xs
    (step.1 :: rest.1, rest.2)

/-- `divwalk(a, d)`: the quotient words and the final remainder (44_divide.md R190). -/
def divWalk (a : List Word) (d : Word) : List Word × Word := divWalkFrom d 0 a

/-- DIVW: the quotient keeps the dividend's length, and REM takes the remainder (44_divide.md R191). -/
def execDivw (rd rs1 : Reg) (imm : Word) (s : State) : Host.Outcome State Fault Refusal :=
  s.perform (s.source rs1 fun a =>
    if imm = 0 then .raise .divZero else .writeRem rd (divWalk a imm).1 (divWalk a imm).2)

/-- MODW: the result is the one word of the remainder, which REM takes too (44_divide.md R193). -/
def execModw (rd rs1 : Reg) (imm : Word) (s : State) : Host.Outcome State Fault Refusal :=
  s.perform (s.source rs1 fun a =>
    if imm = 0 then .raise .divZero else .writeRem rd [(divWalk a imm).2] (divWalk a imm).2)

end Sys2Proof.Machine
end

