-- ==== Sys2Proof/Machine/Multiply.lean ====
section
/-! DEFINITION. The multi-word schoolbook multiplier (43_multiply.md R180, R181). -/

namespace Sys2Proof.Machine

/-- The inner loop: the scratch words `[scratch_(n-1), ..., scratch_0]` of one word of the left operand times the lowest `n`
words of the right one, and the running carry (43_multiply.md R180). -/
def mulRow (x : Word) (b : List Word) : Nat → List Word × Word
  | 0 => ([], 0)
  | j + 1 =>
    let before := mulRow x b j
    let product := widenMul x (lw b j)
    let p := product.1.toNat * 2 ^ 64 + product.2.toNat + before.2.toNat
    (BitVec.ofNat 64 p :: before.1, BitVec.ofNat 64 (p / 2 ^ 64))

/-- The scratch buffer of one word of the left operand, `nb + 1` words: the carry is its leading word (43_multiply.md R180). -/
def scratch (x : Word) (b : List Word) : List Word :=
  let row := mulRow x b b.length
  row.2 :: row.1

/-- The accumulator after `n` words of the left operand. It is wide enough that placing the scratch buffer loses nothing
(43_multiply.md R180, 90_conflicts.md C1). -/
def mulAcc (a b : List Word) : Nat → Nat
  | 0 => 0
  | i + 1 => mulAcc a b i + mag (scratch (lw a i) b) * 2 ^ (64 * i)

/-- The normalized product (43_multiply.md R180). -/
def mulWords (a b : List Word) : List Word :=
  trim (wordsN (a.length + b.length) (mulAcc a b a.length))

/-- MUL: CAPACITY is judged on the normalized product (43_multiply.md R180, 92_eei_decisions.md D21). -/
def execMul (rd rs1 rs2 : Reg) (s : State) : Host.Outcome State Fault Refusal :=
  s.perform (s.sources rs1 rs2 fun a b => s.within (mulWords a b).length fun _ => .write rd (mulWords a b))

end Sys2Proof.Machine
end

