-- ==== Sys2Proof/Machine/Normalize.lean ====
section
/-! DEFINITION. The word-sequence normalizer (45_normalize.md R210). -/

namespace Sys2Proof.Machine

/-- NORM: `V[rd] <- trim(V[rs1].w)` (45_normalize.md R210). -/
def execNorm (rd rs1 : Reg) (s : State) : Host.Outcome State Fault Refusal :=
  s.perform (s.source rs1 fun a => .write rd (trim a))

end Sys2Proof.Machine
end

