-- ==== Sys2Proof/Machine/Shift.lean ====
section
/-! DEFINITION. The multi-word shifter (42_shift.md R150 to R156). Every amount is legal; none is reduced. -/

namespace Sys2Proof.Machine

/-- The left shift by `q` words and `k` bits within the length of `a` (the loop of 42_shift.md R151). No word is ever
shifted by 64 bit positions: with `k = 0` nothing comes from the neighbour (R150). -/
def shiftLeftWords (a : List Word) (q k : Nat) : List Word :=
  collect (fun i =>
    let hi := if q ≤ i then lw a (i - q) else 0
    let lo := if q + 1 ≤ i then lw a (i - q - 1) else 0
    if k = 0 then hi else (hi <<< k) ||| (lo >>> (64 - k))) a.length

/-- The right shift by `q` words and `k` bits within the length of `a` (the loop of 42_shift.md R152). -/
def shiftRightWords (a : List Word) (q k : Nat) : List Word :=
  collect (fun i =>
    let lo := lw a (i + q)
    let hi := lw a (i + q + 1)
    if k = 0 then lo else (lo >>> k) ||| (hi <<< (64 - k))) a.length

/-- `grow(a, s)`, the least length of at least `|a|` that holds `mag(a) * 2^s`; a zero value does not grow
(42_shift.md R153). The ceiling of a quotient by 64 is the quotient of the number plus 63. -/
def grow (a : List Word) (s : Nat) : Nat :=
  if bitlen (mag a) = 0 then a.length else max a.length ((bitlen (mag a) + s + 63) / 64)

/-- `a` with zero words prepended up to length `n` (42_shift.md R154). -/
def padTo (a : List Word) (n : Nat) : List Word := List.replicate (n - a.length) 0 ++ a

/-- The left shift by whole words (42_shift.md R155). -/
def chunkLeft (a : List Word) (c : Nat) : List Word :=
  collect (fun i => if c ≤ i then lw a (i - c) else 0) a.length

/-- The right shift by whole words (42_shift.md R156). -/
def chunkRight (a : List Word) (c : Nat) : List Word := collect (fun i => lw a (i + c)) a.length

/-- SHL (42_shift.md R151). -/
def execShl (rd rs1 : Reg) (imm : Word) (s : State) : Host.Outcome State Fault Refusal :=
  s.perform (s.source rs1 fun a => .write rd (shiftLeftWords a (wordPart imm) (bitPart imm)))

/-- SHR (42_shift.md R152). -/
def execShr (rd rs1 : Reg) (imm : Word) (s : State) : Host.Outcome State Fault Refusal :=
  s.perform (s.source rs1 fun a => .write rd (shiftRightWords a (wordPart imm) (bitPart imm)))

/-- SHLX: grow, then the fixed-width shift of the grown sequence (42_shift.md R154). -/
def execShlx (rd rs1 : Reg) (imm : Word) (s : State) : Host.Outcome State Fault Refusal :=
  s.perform (s.source rs1 fun a =>
    s.within (grow a imm.toNat) fun _ =>
      .write rd (shiftLeftWords (padTo a (grow a imm.toNat)) (wordPart imm) (bitPart imm)))

/-- CSHL (42_shift.md R155). -/
def execCshl (rd rs1 : Reg) (imm : Word) (s : State) : Host.Outcome State Fault Refusal :=
  s.perform (s.source rs1 fun a => .write rd (chunkLeft a imm.toNat))

/-- CSHR (42_shift.md R156). -/
def execCshr (rd rs1 : Reg) (imm : Word) (s : State) : Host.Outcome State Fault Refusal :=
  s.perform (s.source rs1 fun a => .write rd (chunkRight a imm.toNat))

end Sys2Proof.Machine
end

