-- ==== Sys2Proof/Machine/Transfer.lean ====
section
/-! DEFINITION. Construction, copy and read-back commands (40_construct_read.md R100 to R107). -/

namespace Sys2Proof.Machine

/-- NOP: nothing but the command cycle (40_construct_read.md R100). -/
def execNop (s : State) : Host.Outcome State Fault Refusal := s.perform (.commit {})

/-- LDI: `V[rd] <- [imm]` (40_construct_read.md R101). -/
def execLdi (rd : Reg) (imm : Word) (s : State) : Host.Outcome State Fault Refusal := s.perform (.write rd [imm])

/-- APPW: `V[rd] <- V[rd].w ++ [imm]` (40_construct_read.md R102). -/
def execAppw (rd : Reg) (imm : Word) (s : State) : Host.Outcome State Fault Refusal :=
  s.perform (s.source rd fun w => s.within (w.length + 1) fun _ => .write rd (w ++ [imm]))

/-- MOV: `V[rd] <- V[rs1].w`, leading zero words and all (40_construct_read.md R103). -/
def execMov (rd rs1 : Reg) (s : State) : Host.Outcome State Fault Refusal :=
  s.perform (s.source rs1 fun a => .write rd a)

/-- RDW: `out <- lw(V[rs1].w, imm)` (40_construct_read.md R104). -/
def execRdw (rs1 : Reg) (imm : Word) (s : State) : Host.Outcome State Fault Refusal :=
  s.perform (s.source rs1 fun a => .answer (lw a imm.toNat))

/-- RDLEN: `out <- zext_64(|V[rs1].w|)` (40_construct_read.md R105). -/
def execRdlen (rs1 : Reg) (s : State) : Host.Outcome State Fault Refusal :=
  s.perform (s.source rs1 fun a => .answer (BitVec.ofNat 64 a.length))

/-- RDSTAT: `out <- STATUS`, the value before this command's own update (40_construct_read.md R106). -/
def execRdstat (s : State) : Host.Outcome State Fault Refusal := s.perform (.answer s.statusWord)

/-- RDREM: `out <- REM` (40_construct_read.md R107). -/
def execRdrem (s : State) : Host.Outcome State Fault Refusal := s.perform (.answer s.rem)

end Sys2Proof.Machine
end

