-- ==== Sys2Proof/Machine/Dispatch.lean ====
section
/-! DEFINITION. One arm for each command of the opcode map (30_encoding.md R75). -/

namespace Sys2Proof.Machine

/-- A command's meaning on a state. -/
def exec (i : Instr) (s : State) : Host.Outcome State Fault Refusal :=
  match i with
  | .nop => Sys2Proof.Machine.execNop s
  | .ldi rd imm => Sys2Proof.Machine.execLdi rd imm s
  | .appw rd imm => Sys2Proof.Machine.execAppw rd imm s
  | .mov rd rs1 => Sys2Proof.Machine.execMov rd rs1 s
  | .rdw rs1 imm => Sys2Proof.Machine.execRdw rs1 imm s
  | .rdlen rs1 => Sys2Proof.Machine.execRdlen rs1 s
  | .rdstat => Sys2Proof.Machine.execRdstat s
  | .rdrem => Sys2Proof.Machine.execRdrem s
  | .add rd rs1 rs2 => Sys2Proof.Machine.execAdd rd rs1 rs2 s
  | .sub rd rs1 rs2 => Sys2Proof.Machine.execSub rd rs1 rs2 s
  | .shl rd rs1 imm => Sys2Proof.Machine.execShl rd rs1 imm s
  | .shr rd rs1 imm => Sys2Proof.Machine.execShr rd rs1 imm s
  | .shlx rd rs1 imm => Sys2Proof.Machine.execShlx rd rs1 imm s
  | .cshl rd rs1 imm => Sys2Proof.Machine.execCshl rd rs1 imm s
  | .cshr rd rs1 imm => Sys2Proof.Machine.execCshr rd rs1 imm s
  | .mul rd rs1 rs2 => Sys2Proof.Machine.execMul rd rs1 rs2 s
  | .divw rd rs1 imm => Sys2Proof.Machine.execDivw rd rs1 imm s
  | .modw rd rs1 imm => Sys2Proof.Machine.execModw rd rs1 imm s
  | .norm rd rs1 => Sys2Proof.Machine.execNorm rd rs1 s

end Sys2Proof.Machine
end

