-- ==== Sys2Proof/Machine/Step.lean ====
section
/-! DEFINITION. One step of the machine: the block takes the host's next input and, if it is a legal command, runs it whole
(20_memory.md R57, 30_encoding.md R70). -/

namespace Sys2Proof.Machine

/-- One transaction on the command port, or one reset, or nothing when the host has nothing to do. -/
def step (s : State) : Host.Outcome State Fault Refusal :=
  match s.fetch with
  | .settled t => .next t
  | .command i t => exec i t

/-- The state in which the host issues, as its very next command, the instruction whose bits are `w` as
spec/opcode_table.json numbers them. The machine fetches nothing from a program: the host delivers each command
(20_memory.md R60; log entry 3), so this stands for the host's delivery. -/
def State.withFetchWord (s : State) (nbits w : Nat) : State := s.issue (tableRequest nbits w)

end Sys2Proof.Machine
end

