-- ==== Sys2Proof/Machine/Asm.lean ====
section
/-! DEFINITION. The assembler of 30_encoding.md R80 and the pseudo-instructions of R81.

Neither is a command: the block sees only the command words they come to (R81), so nothing here has an arm in `exec`. Text is
a list of characters. What R80 leaves open about spaces and digits is log entry 9; a line it does not allow is refused. -/

namespace Sys2Proof.Machine

/-- A pseudo-instruction (30_encoding.md R81). -/
inductive Pseudo where
  /-- `LDW vd, [w_(k-1), ..., w_0]`, `k >= 1`: the first word, then the rest. -/
  | ldw (rd : Reg) (first : Word) (rest : List Word)
  /-- `CLR vd`. -/
  | clr (rd : Reg)
  /-- `DBL vd, vs`. -/
  | dbl (rd rs : Reg)
  /-- `SQR vd, vs`. -/
  | sqr (rd rs : Reg)
  /-- `TRIM vd`. -/
  | trim (rd : Reg)
  /-- `SUBN vd, vs1, vs2`. -/
  | subn (rd rs1 rs2 : Reg)
deriving DecidableEq, Repr

/-- The commands a pseudo-instruction expands to, in order (30_encoding.md R81). -/
def Pseudo.expand : Pseudo → List Instr
  | .ldw rd first rest => .ldi rd first :: rest.map (.appw rd)
  | .clr rd => [.ldi rd 0]
  | .dbl rd rs => [.add rd rs rs]
  | .sqr rd rs => [.mul rd rs rs]
  | .trim rd => [.norm rd rd]
  | .subn rd rs1 rs2 => [.sub rd rs1 rs2, .norm rd rd]

/-- The text without its leading blanks. -/
def dropBlanks : List Char → List Char
  | [] => []
  | c :: cs => if c = ' ' ∨ c = '\t' then dropBlanks cs else c :: cs

/-- The text without its leading and trailing blanks. -/
def strip (cs : List Char) : List Char := (dropBlanks (dropBlanks cs).reverse).reverse

/-- The parts of a text between commas, each without blanks around it; a blank text has no part. -/
def parts (cs : List Char) : List (List Char) :=
  if strip cs = [] then [] else (cs.splitOn ',').map strip

/-- The value of a digit in a base up to 16. -/
def digitValue (base : Nat) (c : Char) : Option Nat :=
  let v :=
    if '0' ≤ c ∧ c ≤ '9' then c.toNat - '0'.toNat
    else if 'a' ≤ c ∧ c ≤ 'f' then c.toNat - 'a'.toNat + 10
    else if 'A' ≤ c ∧ c ≤ 'F' then c.toNat - 'A'.toNat + 10
    else base
  if v < base then some v else none

/-- The value of a string of digits after those whose value is already known. -/
def digitsValue (base : Nat) : Nat → List Char → Option Nat
  | known, [] => some known
  | known, c :: cs => (digitValue base c).bind fun v => digitsValue base (known * base + v) cs

/-- An unsigned decimal or `0x`-prefixed hexadecimal integer (30_encoding.md R80). -/
def parseNumber (cs : List Char) : Option Nat :=
  match cs with
  | [] => none
  | '0' :: 'x' :: [] => none
  | '0' :: 'x' :: ds => digitsValue 16 0 ds
  | ds => digitsValue 10 0 ds

/-- An immediate: a number below 2^64 (30_encoding.md R80). -/
def parseImm (cs : List Char) : Option Word :=
  (parseNumber cs).bind fun n => if n < 2 ^ 64 then some (BitVec.ofNat 64 n) else none

/-- A value register, `v0` to `v15` (30_encoding.md R80). -/
def parseReg (cs : List Char) : Option Reg :=
  match cs with
  | 'v' :: c :: cs =>
    if c = '0' ∧ cs ≠ [] then none
    else (digitsValue 10 0 (c :: cs)).bind fun n => if h : n < 16 then some ⟨n, h⟩ else none
  | _ => none

/-- The mnemonics of the commands and their opcodes (30_encoding.md R75). -/
def mnemonics : List (List Char × BitVec 8) :=
  [("NOP".toList, 0x00), ("LDI".toList, 0x01), ("APPW".toList, 0x02), ("MOV".toList, 0x03), ("RDW".toList, 0x08),
   ("RDLEN".toList, 0x09), ("RDSTAT".toList, 0x0A), ("RDREM".toList, 0x0B), ("ADD".toList, 0x10), ("SUB".toList, 0x11),
   ("SHL".toList, 0x20), ("SHR".toList, 0x21), ("SHLX".toList, 0x22), ("CSHL".toList, 0x23), ("CSHR".toList, 0x24),
   ("MUL".toList, 0x30), ("DIVW".toList, 0x40), ("MODW".toList, 0x41), ("NORM".toList, 0x50)]

/-- A command from its row of the opcode map and its operands, which stand in the order of its form (30_encoding.md R73). -/
def parseOperands (entry : OpcodeEntry) (ops : List (List Char)) : Option Instr :=
  match entry.form, ops with
  | .n, [] => some (entry.build 0 0 0 0)
  | .di, [d, i] => (parseReg d).bind fun rd => (parseImm i).map fun imm => entry.build rd 0 0 imm
  | .ds, [d, a] => (parseReg d).bind fun rd => (parseReg a).map fun rs1 => entry.build rd rs1 0 0
  | .dsi, [d, a, i] =>
    (parseReg d).bind fun rd => (parseReg a).bind fun rs1 => (parseImm i).map fun imm => entry.build rd rs1 0 imm
  | .dss, [d, a, b] =>
    (parseReg d).bind fun rd => (parseReg a).bind fun rs1 => (parseReg b).map fun rs2 => entry.build rd rs1 rs2 0
  | .s, [a] => (parseReg a).map fun rs1 => entry.build 0 rs1 0 0
  | .si, [a, i] => (parseReg a).bind fun rs1 => (parseImm i).map fun imm => entry.build 0 rs1 0 imm
  | _, _ => none

/-- The words of a bracketed list, most-significant first (30_encoding.md R81). -/
def parseWords (cs : List Char) : Option (List Word) :=
  match strip cs with
  | '[' :: inner =>
    match inner.reverse with
    | ']' :: body => (parts body.reverse).mapM parseImm
    | _ => none
  | _ => none

/-- A pseudo-instruction from its mnemonic and the text of its operands (30_encoding.md R81). -/
def parsePseudo (name text : List Char) : Option Pseudo :=
  if name = "LDW".toList then
    (parseReg (strip (text.takeWhile (· ≠ ',')))).bind fun rd =>
      (parseWords ((text.dropWhile (· ≠ ',')).drop 1)).bind fun ws =>
        match ws with
        | [] => none
        | w :: rest => some (.ldw rd w rest)
  else
    match parts text with
    | [d] =>
      (parseReg d).bind fun rd =>
        if name = "CLR".toList then some (.clr rd) else if name = "TRIM".toList then some (.trim rd) else none
    | [d, a] =>
      (parseReg d).bind fun rd => (parseReg a).bind fun rs =>
        if name = "DBL".toList then some (.dbl rd rs) else if name = "SQR".toList then some (.sqr rd rs) else none
    | [d, a, b] =>
      (parseReg d).bind fun rd => (parseReg a).bind fun rs1 => (parseReg b).bind fun rs2 =>
        if name = "SUBN".toList then some (.subn rd rs1 rs2) else none
    | _ => none

/-- The commands one line of assembler text comes to, none if it is no such line. Text after `;` is a comment, and a line
with nothing else stands for no command (30_encoding.md R80, R81). -/
def assemble (line : List Char) : Option (List Instr) :=
  let code := strip (line.takeWhile (· ≠ ';'))
  if code = [] then some []
  else
    let name := code.takeWhile fun c => c ≠ ' ' ∧ c ≠ '\t'
    let text := code.dropWhile fun c => c ≠ ' ' ∧ c ≠ '\t'
    match mnemonics.lookup name with
    | some opc =>
      (opcodeEntry opc).bind fun entry => (parseOperands entry (parts text)).map fun i => [i]
    | none => (parsePseudo name text).map Pseudo.expand

end Sys2Proof.Machine
end

