-- ==== Sys2Proof/Safety.lean ====
section
/-! DEFINITION. The terms in which claims about the machine are stated: the states a command leaves, what a command names as
source and destination, and the invariant of the machine. -/

namespace Sys2Proof.Machine

/-- `V[r]` is valid and holds the sequence `w`. -/
abbrev State.Holds (s : State) (r : Reg) (w : List Word) : Prop := s.v[r] = ⟨w, true⟩

/-- The state a successful command leaves that writes `w` to `V[rd]` and nothing else (60_exceptions.md R229, R230). -/
def State.afterWrite (s : State) (rd : Reg) (w : List Word) : State :=
  { s with
    v := s.v.set rd ⟨w, true⟩
    status := { s.status with lastResp := .ok }
    response := some ⟨.ok, 0⟩ }

/-- The state a successful DIVW or MODW leaves, which writes REM too (44_divide.md R191, R193). -/
def State.afterDivide (s : State) (rd : Reg) (w : List Word) (r : Word) : State := { s.afterWrite rd w with rem := r }

/-- The state a successful command leaves that writes no register and returns `out` (60_exceptions.md R221, R229). -/
def State.afterAnswer (s : State) (out : Word) : State :=
  { s with
    status := { s.status with lastResp := .ok }
    response := some ⟨.ok, out⟩ }

/-- The state a failed command leaves (60_exceptions.md R229): only FAULT, FIRST_ERR when it is the first failure, and
LAST_RESP change, and the response is the code with `out = 0`. -/
def State.afterFail (s : State) (c : Cause) : State :=
  { s with
    status := { s.status with
      fault := true
      firstErr := if s.status.fault then s.status.firstErr else .failed c
      lastResp := .failed c }
    response := some ⟨.failed c, 0⟩ }

end Sys2Proof.Machine

namespace Sys2Proof

/-- The value register a command may write: the column 'writes' of 30_encoding.md R75. -/
def Instr.dest : Instr → Option Reg
  | .ldi rd _ | .appw rd _ | .mov rd _ | .norm rd _ => some rd
  | .add rd _ _ | .sub rd _ _ | .mul rd _ _ => some rd
  | .shl rd _ _ | .shr rd _ _ | .shlx rd _ _ | .cshl rd _ _ | .cshr rd _ _ | .divw rd _ _ | .modw rd _ _ => some rd
  | .nop | .rdw _ _ | .rdlen _ | .rdstat | .rdrem => none

/-- The value registers a command checks for validity, in the order of 60_exceptions.md R223. -/
def Instr.sources : Instr → List Reg
  | .nop | .ldi _ _ | .rdstat | .rdrem => []
  | .appw rd _ => [rd]
  | .mov _ rs1 | .rdw rs1 _ | .rdlen rs1 | .norm _ rs1 => [rs1]
  | .shl _ rs1 _ | .shr _ rs1 _ | .shlx _ rs1 _ | .cshl _ rs1 _ | .cshr _ rs1 _ | .divw _ rs1 _ | .modw _ rs1 _ => [rs1]
  | .add _ rs1 rs2 | .sub _ rs1 rs2 | .mul _ rs1 rs2 => [rs1, rs2]

/-- DIVW and MODW, the only commands that write REM (10_state.md R25). -/
def Instr.divides : Instr → Bool
  | .divw _ _ _ | .modw _ _ _ => true
  | .nop | .ldi _ _ | .appw _ _ | .mov _ _ | .rdw _ _ | .rdlen _ | .rdstat | .rdrem | .norm _ _ => false
  | .add _ _ _ | .sub _ _ _ | .mul _ _ _ | .shl _ _ _ | .shr _ _ _ | .shlx _ _ _ | .cshl _ _ _ | .cshr _ _ _ => false

/-- RDW, RDLEN, RDSTAT and RDREM, the only commands that set `out` (60_exceptions.md R221). -/
def Instr.answers : Instr → Bool
  | .rdw _ _ | .rdlen _ | .rdstat | .rdrem => true
  | .nop | .ldi _ _ | .appw _ _ | .mov _ _ | .norm _ _ | .divw _ _ _ | .modw _ _ _ => false
  | .add _ _ _ | .sub _ _ _ | .mul _ _ _ | .shl _ _ _ | .shr _ _ _ | .shlx _ _ _ | .cshl _ _ _ | .cshr _ _ _ => false

namespace Machine

/-- The command's result would need more than MAXW words, its sources being valid (60_exceptions.md R226). -/
def CapacityExceeded (s : State) : Instr → Prop
  | .appw rd _ => ∃ w, s.Holds rd w ∧ s.capacity < w.length + 1
  | .add _ rs1 rs2 => ∃ a b, s.Holds rs1 a ∧ s.Holds rs2 b ∧
      2 ^ (64 * max a.length b.length) ≤ mag a + mag b ∧ s.capacity < max a.length b.length + 1
  | .shlx _ rs1 imm => ∃ a, s.Holds rs1 a ∧ s.capacity < grow a imm.toNat
  | .mul _ rs1 rs2 => ∃ a b, s.Holds rs1 a ∧ s.Holds rs2 b ∧
      s.capacity < (trim (wordsN (a.length + b.length) (mag a * mag b))).length
  | .nop | .ldi _ _ | .mov _ _ | .rdw _ _ | .rdlen _ | .rdstat | .rdrem | .sub _ _ _ | .shl _ _ _ | .shr _ _ _
  | .cshl _ _ _ | .cshr _ _ _ | .divw _ _ _ | .modw _ _ _ | .norm _ _ => False

/-- The invariant of the machine:
MAXW is in its range (00_scope.md R6); every register's sequence has 1 to MAXW words (10_state.md R22);
FIRST_ERR is 0 exactly while FAULT is 0, and a failing LAST_RESP means FAULT is 1 (10_state.md R27);
the response, if there is one, has the code of LAST_RESP and `out = 0` on a failure (60_exceptions.md R221, R229). -/
structure State.Wf (s : State) : Prop where
  /-- MAXW is at least 2; its 32-bit field keeps it below 2^32. -/
  maxw : 2 ≤ s.capacity
  /-- No sequence is empty. -/
  nonempty : ∀ r : Reg, s.v[r].words ≠ []
  /-- No sequence is longer than MAXW. -/
  fits : ∀ r : Reg, s.v[r].words.length ≤ s.capacity
  /-- FIRST_ERR is OK exactly while FAULT is 0. -/
  firstErr : s.status.fault = false ↔ s.status.firstErr = .ok
  /-- A failing LAST_RESP has set FAULT. -/
  lastResp : s.status.lastResp ≠ .ok → s.status.fault = true
  /-- The last response agrees with LAST_RESP. -/
  response : ∀ p ∈ s.response, p.code = s.status.lastResp ∧ (p.code ≠ .ok → p.out = 0)

/-- Two states that agree on everything but the sequences of registers that are not valid, which nothing can read
(10_state.md R24). -/
structure SameReadable (s t : State) : Prop where
  /-- REM agrees. -/
  rem : s.rem = t.rem
  /-- STATUS agrees. -/
  status : s.status = t.status
  /-- The last response agrees. -/
  response : s.response = t.response
  /-- What the host will do agrees. -/
  inputs : s.inputs = t.inputs
  /-- The valid bits agree. -/
  valid : ∀ r : Reg, s.v[r].valid = t.v[r].valid
  /-- The sequences of valid registers agree. -/
  words : ∀ r : Reg, s.v[r].valid = true → s.v[r].words = t.v[r].words

/-- The state with the sequence of `V[r]` normalized and nothing else changed, the valid bit kept: a register that held `w`
holds `trim w` (10_state.md R29). -/
def State.trimSource (s : State) (r : Reg) : State := { s with v := s.v.set r ⟨trim s.v[r].words, s.v[r].valid⟩ }

/-- The command completes its cycle from both states with the same response, the same STATUS and the same REM; and where it
succeeds, the two contents of its destination are related by `same`. -/
def SameResult (same : VReg → VReg → Prop) (i : Instr) (s s' : State) : Prop :=
  ∃ t u, exec i s = .next t ∧ exec i s' = .next u ∧
    t.response = u.response ∧ t.statusWord = u.statusWord ∧ t.rem = u.rem ∧
    (t.status.lastResp = .ok → ∀ rd ∈ i.dest, same t.v[rd] u.v[rd])

/-- Commands run one after another, in order (20_memory.md R57); a failed command does not stop the next
(60_exceptions.md R230). -/
def runAll : List Instr → State → Host.Outcome State Fault Refusal
  | [], s => .next s
  | i :: is, s =>
    match exec i s with
    | .next t => runAll is t
    | .fault r => .fault r
    | .refused r => .refused r

end Machine

end Sys2Proof
end

