-- ==== Sys2Proof/Certificates/Slice0/Obligations.lean ====
section
/-! DEFINITION. What the provers are asked to prove of the model: the encoding, the step, the command cycle, the result of
every command with the conditions under which it completes, and the result laws of the families. -/

open Sys2Proof Sys2Proof.Machine

/-! ### Encoding -/

/-- Decoding an encoded command gives it back, with every operand at every value (30_encoding.md R71 to R75). -/
def Obligations.DecodeEncodeAgree : Prop :=
  ∀ i : Instr, decode (encode i).cmd (encode i).imm = .ok i

/-- A command word has one meaning: encoding what it decodes to gives the word back, and the immediate where the form uses it;
a form without `imm` is sent with 0 (30_encoding.md R73, R76, R80). -/
def Obligations.EncodeDecodeAgree : Prop :=
  ∀ (cmd : CmdWord) (imm : Word) (i : Instr), decode cmd imm = .ok i →
    (encode i).cmd = cmd ∧ (encode i).imm = if i.form.usesImm then imm else 0

/-- Every row of the opcode map of 30_encoding.md R75: a word that shows `match` under `mask` is that row's command, with
`rd`, `rs1` and `rs2` read from cmd[23:20], cmd[19:16] and cmd[15:12] (R72). -/
def Obligations.DecodeReadsEachRow : Prop :=
  ∀ (cmd : CmdWord) (imm : Word),
    let rd : Reg := (cmd.extractLsb' 20 4).toFin
    let rs1 : Reg := (cmd.extractLsb' 16 4).toFin
    let rs2 : Reg := (cmd.extractLsb' 12 4).toFin
    (cmd &&& 0xFFFFFFFF = 0x00000000 → decode cmd imm = .ok .nop) ∧
    (cmd &&& 0xFF0FFFFF = 0x01000000 → decode cmd imm = .ok (.ldi rd imm)) ∧
    (cmd &&& 0xFF0FFFFF = 0x02000000 → decode cmd imm = .ok (.appw rd imm)) ∧
    (cmd &&& 0xFF00FFFF = 0x03000000 → decode cmd imm = .ok (.mov rd rs1)) ∧
    (cmd &&& 0xFFF0FFFF = 0x08000000 → decode cmd imm = .ok (.rdw rs1 imm)) ∧
    (cmd &&& 0xFFF0FFFF = 0x09000000 → decode cmd imm = .ok (.rdlen rs1)) ∧
    (cmd &&& 0xFFFFFFFF = 0x0A000000 → decode cmd imm = .ok .rdstat) ∧
    (cmd &&& 0xFFFFFFFF = 0x0B000000 → decode cmd imm = .ok .rdrem) ∧
    (cmd &&& 0xFF000FFF = 0x10000000 → decode cmd imm = .ok (.add rd rs1 rs2)) ∧
    (cmd &&& 0xFF000FFF = 0x11000000 → decode cmd imm = .ok (.sub rd rs1 rs2)) ∧
    (cmd &&& 0xFF00FFFF = 0x20000000 → decode cmd imm = .ok (.shl rd rs1 imm)) ∧
    (cmd &&& 0xFF00FFFF = 0x21000000 → decode cmd imm = .ok (.shr rd rs1 imm)) ∧
    (cmd &&& 0xFF00FFFF = 0x22000000 → decode cmd imm = .ok (.shlx rd rs1 imm)) ∧
    (cmd &&& 0xFF00FFFF = 0x23000000 → decode cmd imm = .ok (.cshl rd rs1 imm)) ∧
    (cmd &&& 0xFF00FFFF = 0x24000000 → decode cmd imm = .ok (.cshr rd rs1 imm)) ∧
    (cmd &&& 0xFF000FFF = 0x30000000 → decode cmd imm = .ok (.mul rd rs1 rs2)) ∧
    (cmd &&& 0xFF00FFFF = 0x40000000 → decode cmd imm = .ok (.divw rd rs1 imm)) ∧
    (cmd &&& 0xFF00FFFF = 0x41000000 → decode cmd imm = .ok (.modw rd rs1 imm)) ∧
    (cmd &&& 0xFF00FFFF = 0x50000000 → decode cmd imm = .ok (.norm rd rs1))

/-- 30_encoding.md R76: a word is legal exactly when a row's pattern matches it, and at most one row matches;
it is illegal exactly when its opcode is in no row, or RSV is not zero, or a register field its form does not use is not zero,
whatever the immediate; and a word that matches no row answers ILLEGAL and nothing else happens. -/
def Obligations.LegalExactlyWhenOneRowMatches : Prop :=
  ∀ (cmd : CmdWord) (imm : Word),
    ((∃ i, decode cmd imm = .ok i) ↔ ∃ p ∈ opcodeMap, cmd &&& p.mask = p.value) ∧
    (∀ p ∈ opcodeMap, ∀ q ∈ opcodeMap, cmd &&& p.mask = p.value → cmd &&& q.mask = q.value → p = q) ∧
    ((¬ ∃ p ∈ opcodeMap, cmd &&& p.mask = p.value) ↔
      (cmd.extractLsb' 24 8 ∉ opcodeMap.map Pattern.opc ∨ cmd.extractLsb' 0 12 ≠ 0 ∨
        ∃ entry, opcodeEntry (cmd.extractLsb' 24 8) = some entry ∧
          ((entry.form.usesRd = false ∧ cmd.extractLsb' 20 4 ≠ 0) ∨
           (entry.form.usesRs1 = false ∧ cmd.extractLsb' 16 4 ≠ 0) ∨
           (entry.form.usesRs2 = false ∧ cmd.extractLsb' 12 4 ≠ 0)))) ∧
    (∀ (s : State) (rest : List HostInput), s.inputs = .command ⟨cmd, imm⟩ :: rest →
      (¬ ∃ p ∈ opcodeMap, cmd &&& p.mask = p.value) →
        step s = .next ({ s with inputs := rest }.afterFail .illegal))

/-- A command whose form does not use `imm` ignores it: any value is accepted and has no effect (30_encoding.md R74). -/
def Obligations.UnusedImmediateIgnored : Prop :=
  ∀ (cmd : CmdWord) (imm imm' : Word) (i : Instr), decode cmd imm = .ok i → i.form.usesImm = false →
    decode cmd imm' = .ok i

/-- The reserved opcodes of 30_encoding.md R77, in the ranges the rule lists: a word is refused for its opcode exactly when the
opcode is in one of them, and it then answers ILLEGAL. There is no custom space, so no other opcode is refused for itself.
That the decoder's reason is the name reservedOpcode, also where another field of the word is at fault, is the model's choice
(log entry 12): R77 says ILLEGAL only. -/
def Obligations.ReservedOpcodesAreIllegal : Prop :=
  ∀ (cmd : CmdWord) (imm : Word),
    let o := (cmd.extractLsb' 24 8).toNat
    let reserved := (0x04 ≤ o ∧ o ≤ 0x07) ∨ (0x0C ≤ o ∧ o ≤ 0x0F) ∨ (0x12 ≤ o ∧ o ≤ 0x1F) ∨ (0x25 ≤ o ∧ o ≤ 0x2F) ∨
      (0x31 ≤ o ∧ o ≤ 0x3F) ∨ (0x42 ≤ o ∧ o ≤ 0x4F) ∨ (0x51 ≤ o ∧ o ≤ 0xFF)
    (reserved ↔ decode cmd imm = .error (.reservedOpcode (cmd.extractLsb' 24 8))) ∧
    (reserved → ∀ (s : State) (rest : List HostInput), s.inputs = .command ⟨cmd, imm⟩ :: rest →
      step s = .next ({ s with inputs := rest }.afterFail .illegal))

/-- Words written out from the spec decode to the commands they stand for (30_encoding.md R80; 95_test_vectors.md section 3),
and two words that section 2.8 gives as ILLEGAL are refused. The names under which the decoder refuses these two, reservedField
and unusedRs1, are the model's choice (log entry 12): the spec says ILLEGAL only. -/
def Obligations.SampleWordsDecode : Prop :=
  decode 0x10123000 0 = .ok (.add 1 2 3) ∧
  decode 0x20440000 65 = .ok (.shl 4 4 65) ∧
  decode 0x08050000 0 = .ok (.rdw 5 0) ∧
  decode 0x11201000 0 = .ok (.sub 2 0 1) ∧
  decode 0x30023000 0 = .ok (.mul 0 2 3) ∧
  decode 0x41100000 0xFFFFFFFFFFFFFFFF = .ok (.modw 1 0 0xFFFFFFFFFFFFFFFF) ∧
  decode 0x50320000 0 = .ok (.norm 3 2) ∧
  decode 0x10123001 0 = .error (.reservedField 1) ∧
  decode 0x01010000 0 = .error (.unusedRs1 1)

/-! ### The step -/

/-- When the host's next input is a command whose word decodes to a command, a step takes the input and runs exactly that
command on the state (30_encoding.md R70, 60_exceptions.md R229). -/
def Obligations.StepRunsDecodedCommand : Prop :=
  ∀ (s : State) (q : Request) (rest : List HostInput) (i : Instr),
    s.inputs = .command q :: rest → decode q.cmd q.imm = .ok i → step s = exec i { s with inputs := rest }

/-- An illegal command word answers ILLEGAL, whatever the state: decoding comes before anything else, and no value is
recorded beyond the code (60_exceptions.md R222). -/
def Obligations.IllegalWordFailsFirst : Prop :=
  ∀ (s : State) (q : Request) (rest : List HostInput) (why : DecodeError),
    s.inputs = .command q :: rest → decode q.cmd q.imm = .error why →
      step s = .next ({ s with inputs := rest }.afterFail .illegal)

/-- Between commands the block holds its state unchanged (60_exceptions.md R240). That a step with nothing to do is such a
pause is the model's own convention (log entry 3). -/
def Obligations.IdleBlockHoldsState : Prop :=
  ∀ s : State, s.inputs = [] → step s = .next s

/-- The state after reset (70_reset_and_hazards.md R261): every valid bit 0, REM 0, FAULT, FIRST_ERR, LAST_RESP and VALID 0,
MAXW the parameter, and the reserved bits 0, so that STATUS reads `zext_64(MAXW) << 32`. The sequences are unspecified and so
not mentioned, and unreadable: every command that reads a value register fails with UNINIT. -/
def Obligations.ResetLeavesTheStatedValues : Prop :=
  (∀ r : Reg, State.reset.v[r].valid = false) ∧
  State.reset.rem = 0 ∧
  State.reset.status.fault = false ∧ State.reset.status.firstErr = .ok ∧ State.reset.status.lastResp = .ok ∧
  State.reset.validBits = 0 ∧ State.reset.status.maxw = Config.maxw ∧
  State.reset.statusWord = Config.maxw.setWidth 64 <<< 32 ∧
  ∀ i : Instr, i.sources ≠ [] → exec i State.reset = .next (State.reset.afterFail .uninit)

/-- Reset (70_reset_and_hazards.md R260, 60_exceptions.md R230), as an input of the host (log entries 3 and 5): it leaves
the reset state, whatever command it abandons, with no response; and no step without it clears FAULT, changes FIRST_ERR once
FAULT is 1, or clears a valid bit. -/
def Obligations.ResetAloneClearsStickyState : Prop :=
  (∀ (s : State) (abandoned : Option Request) (rest : List HostInput), s.inputs = .reset abandoned :: rest →
    step s = .next { State.reset with inputs := rest }) ∧
  (∀ s t : State, (∀ abandoned rest, s.inputs ≠ .reset abandoned :: rest) → step s = .next t →
    (s.status.fault = true → t.status.fault = true ∧ t.status.firstErr = s.status.firstErr) ∧
    ∀ r : Reg, s.v[r].valid = true → t.v[r].valid = true)

/-- The invariant of the machine is kept by every step, from every state that has it: sequences of 1 to MAXW words
(10_state.md R22), MAXW in its range (00_scope.md R6), FIRST_ERR and FAULT agreeing (R27), and the response agreeing with
LAST_RESP (60_exceptions.md R221, R229). -/
def Obligations.StepKeepsInvariant : Prop :=
  ∀ s t : State, s.Wf → step s = .next t → t.Wf

/-- The invariant holds right after reset, whatever MAXW is and whatever the registers happen to hold. It rests on the model's
choice of log entry 2 that a register holds some sequence of 1 to MAXW words at reset. -/
def Obligations.ResetHasInvariant : Prop := State.reset.Wf

/-- Every step has a next state: a failure is a response code and never a stop (60_exceptions.md R231), and every command ends
(70_reset_and_hazards.md R265). -/
def Obligations.EveryStepAnswers : Prop := ∀ s : State, ∃ t, step s = .next t

/-! ### The command cycle, over all commands -/

/-- The command cycle (60_exceptions.md R229): LAST_RESP is the code of the response; a failed command changes no value
register, no valid bit and no REM and answers `out = 0`; FAULT is set by a failure and FIRST_ERR by the first one only; MAXW
and what the host will do are untouched. -/
def Obligations.CommandCycleUpdatesStatus : Prop :=
  ∀ (i : Instr) (s t : State), exec i s = .next t →
    (∃ out, t.response = some ⟨t.status.lastResp, out⟩) ∧
    (t.status.lastResp ≠ .ok →
      t.v = s.v ∧ t.rem = s.rem ∧ t.response = some ⟨t.status.lastResp, 0⟩ ∧ t.status.fault = true ∧
      t.status.firstErr = if s.status.fault then s.status.firstErr else t.status.lastResp) ∧
    (t.status.lastResp = .ok → t.status.fault = s.status.fault ∧ t.status.firstErr = s.status.firstErr) ∧
    t.status.maxw = s.status.maxw ∧ t.inputs = s.inputs

/-- The frame of every command. NOP, RDW, RDLEN, RDSTAT and RDREM change no value register; LDI, APPW, MOV, ADD, SUB, SHL, SHR,
SHLX, CSHL, CSHR, MUL, DIVW, MODW and NORM change none but `rd` (10_state.md R23); REM changes under DIVW and MODW only (R25);
STATUS.MAXW never changes (R27), nor does a command change what the host will do. There is no memory to change
(20_memory.md R50). -/
def Obligations.CommandFrame : Prop :=
  ∀ (i : Instr) (s t : State), exec i s = .next t →
    (∀ r : Reg, i.dest ≠ some r → t.v[r] = s.v[r]) ∧
    (i.divides = false → t.rem = s.rem) ∧
    t.status.maxw = s.status.maxw ∧ t.inputs = s.inputs

/-- The response word (60_exceptions.md R221): every command returns one; it is 0 for every command but RDW, RDLEN, RDSTAT and
RDREM, and for every command that fails. What those four return is stated with each of them. -/
def Obligations.OutIsZeroUnlessRead : Prop :=
  ∀ (i : Instr) (s t : State), exec i s = .next t →
    ∃ out, t.response = some ⟨t.status.lastResp, out⟩ ∧
      (i.answers = false → out = 0) ∧ (t.status.lastResp ≠ .ok → out = 0)

/-- UNINIT (60_exceptions.md R223): a command fails with it exactly when a register it reads is not valid: `rs1` for MOV, RDW,
RDLEN, SHL, SHR, SHLX, CSHL, CSHR, DIVW, MODW and NORM; `rs1` or `rs2` for ADD, SUB and MUL; `rd` for APPW; never for LDI, NOP,
RDSTAT and RDREM. It comes before the command's own check (R228). -/
def Obligations.UninitExactlyOnInvalidSource : Prop :=
  ∀ (i : Instr) (s : State),
    exec i s = .next (s.afterFail .uninit) ↔ ∃ r ∈ i.sources, s.v[r].valid = false

/-- SUB_UNDERFLOW is raised by SUB alone, exactly when the receiver's magnitude is below the operand's (60_exceptions.md R224);
DIV_ZERO by DIVW and MODW alone, exactly when the divisor is 0 (R225); both only once the sources are valid (R228). -/
def Obligations.UnderflowAndDivZeroExactly : Prop :=
  ∀ (i : Instr) (s : State),
    (exec i s = .next (s.afterFail .subUnderflow) ↔
      ∃ rd rs1 rs2 a b, i = .sub rd rs1 rs2 ∧ s.Holds rs1 a ∧ s.Holds rs2 b ∧ mag a < mag b) ∧
    (exec i s = .next (s.afterFail .divZero) ↔
      ∃ rd rs1 a, (i = .divw rd rs1 0 ∨ i = .modw rd rs1 0) ∧ s.Holds rs1 a)

/-- CAPACITY is raised exactly when the result would be longer than MAXW words: by APPW onto a full register, ADD with a
carry-out, SHLX by its growth, and MUL by its normalized product, and by no other command (60_exceptions.md R226). -/
def Obligations.CapacityExactlyWhenTooLong : Prop :=
  ∀ (i : Instr) (s : State), exec i s = .next (s.afterFail .capacity) ↔ CapacityExceeded s i

/-- What a register that is not valid happens to hold is never seen (10_state.md R24): two states that agree on everything else
take the same step, to states that agree on everything else again, the response among it. -/
def Obligations.InvalidContentsNeverSeen : Prop :=
  ∀ s t s' t' : State, SameReadable s t → step s = .next s' → step t = .next t' → SameReadable s' t'

/-- The layout of STATUS (10_state.md R27) and the numbers of the response codes in it (60_exceptions.md R220). -/
def Obligations.StatusWordLayout : Prop :=
  ∀ s : State,
    s.statusWord.getLsbD 0 = s.status.fault ∧
    s.statusWord.extractLsb' 1 3 = 0 ∧
    s.statusWord.extractLsb' 4 4 = s.status.firstErr.number ∧
    s.statusWord.extractLsb' 8 4 = s.status.lastResp.number ∧
    s.statusWord.extractLsb' 12 4 = 0 ∧
    (∀ r : Reg, s.statusWord.getLsbD (16 + r.val) = s.v[r].valid) ∧
    s.statusWord.extractLsb' 32 32 = s.status.maxw ∧
    (Resp.ok.number = 0 ∧ (Resp.failed .illegal).number = 1 ∧ (Resp.failed .uninit).number = 2 ∧
      (Resp.failed .subUnderflow).number = 3 ∧ (Resp.failed .divZero).number = 4 ∧ (Resp.failed .capacity).number = 5)

/-! ### The value functions -/

/-- The magnitude is the sum of the words at their weights, and leading zero words do not change it (10_state.md R28);
`words_n` gives every value that fits back, as follows from its words (00_scope.md R9). R28 speaks of at least one word; that
the equations hold of the empty sequence too is the model's choice (log entry 11). -/
def Obligations.MagnitudeIsWeightedSum : Prop :=
  (∀ w : List Word, mag w = ∑ i ∈ Finset.range w.length, (lw w i).toNat * 2 ^ (64 * i)) ∧
  (∀ (k : Nat) (w : List Word), mag (List.replicate k 0 ++ w) = mag w) ∧
  (∀ n v : Nat, v < 2 ^ (64 * n) → (wordsN n v).length = n ∧ mag (wordsN n v) = v ∧
    ∀ i < n, lw (wordsN n v) i = BitVec.ofNat 64 (v / 2 ^ (64 * i)))

/-- Trim (10_state.md R29) and the normal form it reaches (R30, which the spec derives from R29), on every sequence a
register can hold: the magnitude is kept, the result is never empty and is normalized, a normalized sequence is left as it
is, and the length of a normalized sequence is `max(1, ceil(bitlen(mag(w)) / 64))`; what trim removes is leading zero words
only. -/
def Obligations.TrimNormalizes : Prop :=
  ∀ w : List Word, w ≠ [] →
    mag (trim w) = mag w ∧ trim w ≠ [] ∧ normalized (trim w) = true ∧
    (∃ k, w = List.replicate k 0 ++ trim w) ∧
    (normalized w = true → trim w = w) ∧
    (normalized w = true → w.length = max 1 ((bitlen (mag w) + 63) / 64))

/-- The word-level comparison answers as the magnitudes compare, leading zero words or not (10_state.md R31). -/
def Obligations.CmpComparesMagnitudes : Prop :=
  ∀ u w : List Word, cmpWords u w = compare (mag u) (mag w)

/-- Bit length and bit scans (10_state.md R32). What the scans give for an all-zero sequence is marked by the rule itself as
the spec's own choice. -/
def Obligations.BitScansCountZeros : Prop :=
  bitlen 0 = 0 ∧
  (∀ v : Nat, 0 < v → 2 ^ (bitlen v - 1) ≤ v ∧ v < 2 ^ bitlen v) ∧
  (∀ w : List Word,
    bitscanForward w + bitlen (mag w) = 64 * w.length ∧
    bitscanReverse w ≤ 64 * w.length ∧ mag w % 2 ^ bitscanReverse w = 0 ∧
    (∀ t ≤ 64 * w.length, mag w % 2 ^ t = 0 → t ≤ bitscanReverse w) ∧
    (mag w = 0 → bitscanForward w = 64 * w.length ∧ bitscanReverse w = 64 * w.length))

/-- The growth of the expanding shift (42_shift.md R153): by its formula, not at all for a zero value, and the least length of
at least `|a|` that holds `mag(a) * 2^s`. That it grows by the least amount is marked by the rule itself as the spec's
reading. -/
def Obligations.GrowIsLeastLength : Prop :=
  ∀ (a : List Word) (s : Nat),
    (bitlen (mag a) = 0 → grow a s = a.length) ∧
    (0 < bitlen (mag a) → grow a s = max a.length ((bitlen (mag a) + s + 63) / 64)) ∧
    a.length ≤ grow a s ∧ mag a * 2 ^ s < 2 ^ (64 * grow a s) ∧
    (∀ n, a.length ≤ n → mag a * 2 ^ s < 2 ^ (64 * n) → grow a s ≤ n)

/-! ### Construction, copy and read-back: what each command does and when it completes -/

/-- The commands that read no value register complete in every state: NOP changes nothing but LAST_RESP (40_construct_read.md
R100), LDI writes `[imm]` (R101), RDSTAT returns STATUS as it was before its own update (R106), RDREM returns REM (R107). -/
def Obligations.NopLdiRdstatRdremComplete : Prop :=
  ∀ (s : State) (rd : Reg) (imm : Word),
    exec .nop s = .next (s.afterAnswer 0) ∧
    exec (.ldi rd imm) s = .next (s.afterWrite rd [imm]) ∧
    exec .rdstat s = .next (s.afterAnswer s.statusWord) ∧
    exec .rdrem s = .next (s.afterAnswer s.rem)

/-- APPW (40_construct_read.md R102): UNINIT, CAPACITY on a full register, else the word is appended at the least-significant
end, which makes the magnitude `mag(w) * 2^64 + imm`. -/
def Obligations.AppwAppendsWord : Prop :=
  ∀ (s : State) (rd : Reg) (imm : Word),
    (s.v[rd].valid = false → exec (.appw rd imm) s = .next (s.afterFail .uninit)) ∧
    ∀ w, s.Holds rd w →
      mag (w ++ [imm]) = mag w * 2 ^ 64 + imm.toNat ∧
      (s.capacity < w.length + 1 → exec (.appw rd imm) s = .next (s.afterFail .capacity)) ∧
      (w.length + 1 ≤ s.capacity → exec (.appw rd imm) s = .next (s.afterWrite rd (w ++ [imm])))

/-- MOV (40_construct_read.md R103): UNINIT, else the same words at the same length. -/
def Obligations.MovCopies : Prop :=
  ∀ (s : State) (rd rs1 : Reg),
    (s.v[rs1].valid = false → exec (.mov rd rs1) s = .next (s.afterFail .uninit)) ∧
    ∀ a, s.Holds rs1 a → exec (.mov rd rs1) s = .next (s.afterWrite rd a)

/-- RDW (40_construct_read.md R104): UNINIT, else the word of the magnitude at the least-significant index, 0 at and beyond the
length. -/
def Obligations.RdwReadsWord : Prop :=
  ∀ (s : State) (rs1 : Reg) (imm : Word),
    (s.v[rs1].valid = false → exec (.rdw rs1 imm) s = .next (s.afterFail .uninit)) ∧
    ∀ a, s.Holds rs1 a →
      exec (.rdw rs1 imm) s = .next (s.afterAnswer (BitVec.ofNat 64 (mag a / 2 ^ (64 * imm.toNat)))) ∧
      (a.length ≤ imm.toNat → exec (.rdw rs1 imm) s = .next (s.afterAnswer 0))

/-- RDLEN (40_construct_read.md R105): UNINIT, else the word count, which the invariant puts between 1 and MAXW. -/
def Obligations.RdlenReadsLength : Prop :=
  ∀ (s : State) (rs1 : Reg),
    (s.v[rs1].valid = false → exec (.rdlen rs1) s = .next (s.afterFail .uninit)) ∧
    ∀ a, s.Holds rs1 a →
      exec (.rdlen rs1) s = .next (s.afterAnswer (BitVec.ofNat 64 a.length)) ∧
      (s.Wf → (BitVec.ofNat 64 a.length).toNat = a.length ∧ 1 ≤ a.length ∧ a.length ≤ s.capacity)

/-! ### Adder and subtractor -/

/-- ADD (41_add_sub.md R131, R132): UNINIT; else with `n = max(|a|, |b|)` and `S = mag(a) + mag(b)` the result is `words_n(S)`
when S fits `n` words, `words_(n+1)(S)` when it does not and the register can hold it, and CAPACITY when it cannot. -/
def Obligations.AddGivesExactSum : Prop :=
  ∀ (s : State) (rd rs1 rs2 : Reg),
    ((s.v[rs1].valid = false ∨ s.v[rs2].valid = false) → exec (.add rd rs1 rs2) s = .next (s.afterFail .uninit)) ∧
    ∀ a b, s.Holds rs1 a → s.Holds rs2 b →
      let n := max a.length b.length
      let sum := mag a + mag b
      (sum < 2 ^ (64 * n) → exec (.add rd rs1 rs2) s = .next (s.afterWrite rd (wordsN n sum))) ∧
      (2 ^ (64 * n) ≤ sum → n + 1 ≤ s.capacity →
        exec (.add rd rs1 rs2) s = .next (s.afterWrite rd (wordsN (n + 1) sum))) ∧
      (2 ^ (64 * n) ≤ sum → s.capacity < n + 1 → exec (.add rd rs1 rs2) s = .next (s.afterFail .capacity))

/-- The result laws of ADD (41_add_sub.md R132, which the spec derives from R131 and R28), for every ADD that succeeds. -/
def Obligations.AddResultLaws : Prop :=
  ∀ (s t : State) (rd rs1 rs2 : Reg) (a b : List Word), s.Holds rs1 a → s.Holds rs2 b →
    exec (.add rd rs1 rs2) s = .next t → t.status.lastResp = .ok →
    let n := max a.length b.length
    let sum := mag a + mag b
    let r := t.v[rd].words
    mag r = sum ∧
    (sum < 2 ^ (64 * n) → r = wordsN n sum) ∧ (2 ^ (64 * n) ≤ sum → r = wordsN (n + 1) sum) ∧
    (r.length = n ∨ r.length = n + 1) ∧
    (r.length = n + 1 ↔ 2 ^ (64 * n) ≤ sum) ∧
    (lw a (n - 1) = 0 → lw b (n - 1) = 0 → r.length = n) ∧
    exec (.add rd rs2 rs1) s = exec (.add rd rs1 rs2) s ∧
    ((a.length = n ∧ normalized a = true) ∨ (b.length = n ∧ normalized b = true) ∨ r.length = n + 1 →
      normalized r = true)

/-- SUB (41_add_sub.md R133): UNINIT; SUB_UNDERFLOW when the receiver's magnitude is below the operand's; else the exact
difference at the receiver's length. -/
def Obligations.SubGivesExactDifference : Prop :=
  ∀ (s : State) (rd rs1 rs2 : Reg),
    ((s.v[rs1].valid = false ∨ s.v[rs2].valid = false) → exec (.sub rd rs1 rs2) s = .next (s.afterFail .uninit)) ∧
    ∀ a b, s.Holds rs1 a → s.Holds rs2 b →
      (mag a < mag b → exec (.sub rd rs1 rs2) s = .next (s.afterFail .subUnderflow)) ∧
      (mag b ≤ mag a → exec (.sub rd rs1 rs2) s = .next (s.afterWrite rd (wordsN a.length (mag a - mag b))))

/-- The result laws of SUB (41_add_sub.md R134, which the spec derives from R131, R133 and R29): exact, no borrow left,
leading zero words possible from a normalized receiver, and ADD then SUB then NORM gives the trimmed receiver back. -/
def Obligations.SubResultLaws : Prop :=
  (∀ a b : List Word, mag b ≤ mag a →
    (subSteps a b a.length).1 = wordsN a.length (mag a - mag b) ∧ (subSteps a b a.length).2 = false) ∧
  (∃ (s t : State) (a : List Word), s.Wf ∧ s.Holds 1 a ∧ normalized a = true ∧ exec (.sub 3 1 2) s = .next t ∧
    t.status.lastResp = .ok ∧ normalized t.v[(3 : Reg)].words = false) ∧
  (∀ (s : State) (vt vx vy : Reg) (a b : List Word), s.Wf → s.Holds vx a → s.Holds vy b → vt ≠ vy →
    (mag a + mag b < 2 ^ (64 * max a.length b.length) ∨ max a.length b.length + 1 ≤ s.capacity) →
    ∃ t, runAll [.add vt vx vy, .sub vt vt vy, .norm vt vt] s = .next t ∧ t.status.lastResp = .ok ∧ t.Holds vt (trim a))

/-! ### Shifter -/

/-- SHL (42_shift.md R151): UNINIT, else `words_n((mag(a) * 2^imm) mod 2^(64n))` for every amount. -/
def Obligations.ShlShiftsWithinLength : Prop :=
  ∀ (s : State) (rd rs1 : Reg) (imm : Word),
    (s.v[rs1].valid = false → exec (.shl rd rs1 imm) s = .next (s.afterFail .uninit)) ∧
    ∀ a, s.Holds rs1 a →
      exec (.shl rd rs1 imm) s =
        .next (s.afterWrite rd (wordsN a.length (mag a * 2 ^ imm.toNat % 2 ^ (64 * a.length))))

/-- SHR (42_shift.md R152): UNINIT, else `words_n(mag(a) div 2^imm)` for every amount. -/
def Obligations.ShrShiftsWithinLength : Prop :=
  ∀ (s : State) (rd rs1 : Reg) (imm : Word),
    (s.v[rs1].valid = false → exec (.shr rd rs1 imm) s = .next (s.afterFail .uninit)) ∧
    ∀ a, s.Holds rs1 a →
      exec (.shr rd rs1 imm) s = .next (s.afterWrite rd (wordsN a.length (mag a / 2 ^ imm.toNat)))

/-- SHLX (42_shift.md R154): UNINIT; CAPACITY when the growth exceeds MAXW; else `words_n2(mag(a) * 2^imm)` with
`n2 = grow(a, imm)`, no bit lost. -/
def Obligations.ShlxLosesNoBits : Prop :=
  ∀ (s : State) (rd rs1 : Reg) (imm : Word),
    (s.v[rs1].valid = false → exec (.shlx rd rs1 imm) s = .next (s.afterFail .uninit)) ∧
    ∀ a, s.Holds rs1 a →
      (s.capacity < grow a imm.toNat → exec (.shlx rd rs1 imm) s = .next (s.afterFail .capacity)) ∧
      (grow a imm.toNat ≤ s.capacity →
        exec (.shlx rd rs1 imm) s = .next (s.afterWrite rd (wordsN (grow a imm.toNat) (mag a * 2 ^ imm.toNat))) ∧
        mag (wordsN (grow a imm.toNat) (mag a * 2 ^ imm.toNat)) = mag a * 2 ^ imm.toNat)

/-- CSHL (42_shift.md R155): UNINIT, else `words_n((mag(a) * 2^(64*imm)) mod 2^(64n))` for every word count. -/
def Obligations.CshlShiftsWholeWords : Prop :=
  ∀ (s : State) (rd rs1 : Reg) (imm : Word),
    (s.v[rs1].valid = false → exec (.cshl rd rs1 imm) s = .next (s.afterFail .uninit)) ∧
    ∀ a, s.Holds rs1 a →
      exec (.cshl rd rs1 imm) s =
        .next (s.afterWrite rd (wordsN a.length (mag a * 2 ^ (64 * imm.toNat) % 2 ^ (64 * a.length))))

/-- CSHR (42_shift.md R156): UNINIT, else `words_n(mag(a) div 2^(64*imm))` for every word count. -/
def Obligations.CshrShiftsWholeWords : Prop :=
  ∀ (s : State) (rd rs1 : Reg) (imm : Word),
    (s.v[rs1].valid = false → exec (.cshr rd rs1 imm) s = .next (s.afterFail .uninit)) ∧
    ∀ a, s.Holds rs1 a →
      exec (.cshr rd rs1 imm) s = .next (s.afterWrite rd (wordsN a.length (mag a / 2 ^ (64 * imm.toNat))))

/-- How the shifts agree: CSHL and CSHR by `c` words are SHL and SHR by `64c` bits whenever `64c < 2^64`, and SHLX is SHL when
the value already has room (42_shift.md R154, R155, R156). -/
def Obligations.ShiftsAgree : Prop :=
  ∀ (s : State) (rd rs1 : Reg) (imm : Word),
    (64 * imm.toNat < 2 ^ 64 →
      exec (.cshl rd rs1 imm) s = exec (.shl rd rs1 (64 * imm)) s ∧
      exec (.cshr rd rs1 imm) s = exec (.shr rd rs1 (64 * imm)) s) ∧
    ∀ a, s.Holds rs1 a → a.length ≤ s.capacity → grow a imm.toNat = a.length →
      exec (.shlx rd rs1 imm) s = exec (.shl rd rs1 imm) s

/-! ### Multiplier -/

/-- MUL (43_multiply.md R180): UNINIT; else the normalized exact product, or CAPACITY when that has more than MAXW words. -/
def Obligations.MulGivesNormalizedProduct : Prop :=
  ∀ (s : State) (rd rs1 rs2 : Reg),
    ((s.v[rs1].valid = false ∨ s.v[rs2].valid = false) → exec (.mul rd rs1 rs2) s = .next (s.afterFail .uninit)) ∧
    ∀ a b, s.Holds rs1 a → s.Holds rs2 b →
      let r := trim (wordsN (a.length + b.length) (mag a * mag b))
      (s.capacity < r.length → exec (.mul rd rs1 rs2) s = .next (s.afterFail .capacity)) ∧
      (r.length ≤ s.capacity → exec (.mul rd rs1 rs2) s = .next (s.afterWrite rd r))

/-- The result laws of MUL (43_multiply.md R181, which the spec derives from R180 and R29), for every MUL that succeeds. -/
def Obligations.MulResultLaws : Prop :=
  ∀ (s t : State) (rd rs1 rs2 : Reg) (a b : List Word), s.Wf → s.Holds rs1 a → s.Holds rs2 b →
    exec (.mul rd rs1 rs2) s = .next t → t.status.lastResp = .ok →
    let r := t.v[rd].words
    r = trim (wordsN (a.length + b.length) (mag a * mag b)) ∧ mag r = mag a * mag b ∧ normalized r = true ∧
    r.length = max 1 ((bitlen (mag a * mag b) + 63) / 64) ∧
    (0 < mag a → 0 < mag b →
      (trim a).length + (trim b).length - 1 ≤ r.length ∧ r.length ≤ (trim a).length + (trim b).length) ∧
    (∀ a' b' : List Word, a' ≠ [] → b' ≠ [] → mag a' = mag a → mag b' = mag b → mulWords a' b' = r) ∧
    exec (.mul rd rs2 rs1) s = exec (.mul rd rs1 rs2) s ∧
    (∀ w : Word, 0 < w.toNat → mag r % w.toNat = mag a % w.toNat * (mag b % w.toNat) % w.toNat)

/-! ### Divider and normalizer -/

/-- DIVW (44_divide.md R191): UNINIT; DIV_ZERO; else the quotient at the dividend's length, and REM takes the remainder. -/
def Obligations.DivwGivesQuotient : Prop :=
  ∀ (s : State) (rd rs1 : Reg) (d : Word),
    (s.v[rs1].valid = false → exec (.divw rd rs1 d) s = .next (s.afterFail .uninit)) ∧
    ∀ a, s.Holds rs1 a →
      (d = 0 → exec (.divw rd rs1 d) s = .next (s.afterFail .divZero)) ∧
      (d ≠ 0 → exec (.divw rd rs1 d) s =
        .next (s.afterDivide rd (wordsN a.length (mag a / d.toNat)) (BitVec.ofNat 64 (mag a % d.toNat))))

/-- The result laws of DIVW (44_divide.md R192, which the spec derives from R190 and R191), for every DIVW with a valid
dividend and a nonzero divisor. -/
def Obligations.DivwResultLaws : Prop :=
  ∀ (s : State) (rd rs1 : Reg) (d : Word) (a : List Word), s.Holds rs1 a → d ≠ 0 →
    ∃ t, exec (.divw rd rs1 d) s = .next t ∧ t.status.lastResp = .ok ∧
      mag t.v[rd].words = mag a / d.toNat ∧ t.rem.toNat = mag a % d.toNat ∧
      mag a = mag t.v[rd].words * d.toNat + t.rem.toNat ∧ t.rem.toNat < d.toNat ∧
      t.v[rd].words.length = a.length

/-- MODW (44_divide.md R193): UNINIT; DIV_ZERO; else the one word of the remainder, which REM takes too. -/
def Obligations.ModwGivesRemainder : Prop :=
  ∀ (s : State) (rd rs1 : Reg) (d : Word),
    (s.v[rs1].valid = false → exec (.modw rd rs1 d) s = .next (s.afterFail .uninit)) ∧
    ∀ a, s.Holds rs1 a →
      (d = 0 → exec (.modw rd rs1 d) s = .next (s.afterFail .divZero)) ∧
      (d ≠ 0 → exec (.modw rd rs1 d) s =
        .next (s.afterDivide rd [BitVec.ofNat 64 (mag a % d.toNat)] (BitVec.ofNat 64 (mag a % d.toNat))))

/-- The result laws of MODW (44_divide.md R194, which the spec derives from R190 and R193): the remainder in `V[rd]` and
REM, the same REM as DIVW, and with `d = 2^64 - 1` the sum of the words modulo `2^64 - 1`, which is `[1]` for `[1, 0]`. -/
def Obligations.ModwResultLaws : Prop :=
  ∀ (s : State) (rd rd' rs1 : Reg) (d : Word) (a : List Word), s.Holds rs1 a → d ≠ 0 →
    ∃ t u, exec (.modw rd rs1 d) s = .next t ∧ exec (.divw rd' rs1 d) s = .next u ∧
      t.Holds rd [BitVec.ofNat 64 (mag a % d.toNat)] ∧ t.rem.toNat = mag a % d.toNat ∧ u.rem = t.rem ∧
      (d = 0xFFFFFFFFFFFFFFFF →
        t.Holds rd [BitVec.ofNat 64 ((a.map BitVec.toNat).sum % (2 ^ 64 - 1))] ∧ (a = [1, 0] → t.Holds rd [1]))

/-- NORM (45_normalize.md R210): UNINIT, else the trimmed sequence, never longer than the source and of the same magnitude. -/
def Obligations.NormTrims : Prop :=
  ∀ (s : State) (rd rs1 : Reg),
    (s.v[rs1].valid = false → exec (.norm rd rs1) s = .next (s.afterFail .uninit)) ∧
    ∀ a, s.Holds rs1 a →
      exec (.norm rd rs1) s = .next (s.afterWrite rd (trim a)) ∧
      (trim a).length ≤ a.length ∧ mag (trim a) = mag a

/-- Where leading zero words do not count (45_normalize.md R211, which the spec derives from the family rules): from every
state, MUL, MODW, NORM and RDW have the same response, STATUS and REM, and on success leave the same `V[rd]`, as from that
state with their sources normalized. So has SUB, whose comparison decides alike; its result keeps the length of its receiver
(41_add_sub.md R133), so the two differ in leading zero words only. Then the same of the value functions behind them. -/
def Obligations.LeadingZerosDoNotCount : Prop :=
  (∀ (s : State) (rd rs1 rs2 : Reg) (imm : Word),
    SameResult Eq (.mul rd rs1 rs2) s ((s.trimSource rs1).trimSource rs2) ∧
    SameResult Eq (.modw rd rs1 imm) s (s.trimSource rs1) ∧
    SameResult Eq (.norm rd rs1) s (s.trimSource rs1) ∧
    SameResult Eq (.rdw rs1 imm) s (s.trimSource rs1) ∧
    SameResult (fun x y => trim x.words = trim y.words ∧ x.valid = y.valid) (.sub rd rs1 rs2) s
      ((s.trimSource rs1).trimSource rs2)) ∧
  (∀ (a b : List Word) (d : Word) (i : Nat), a ≠ [] → b ≠ [] →
    mulWords (trim a) (trim b) = mulWords a b ∧
    (d ≠ 0 → (divWalk (trim a) d).2 = (divWalk a d).2) ∧
    trim (trim a) = trim a ∧
    lw (trim a) i = lw a i ∧
    cmpWords (trim a) (trim b) = cmpWords a b)

/-! ### Assembler and integration -/

/-- What each pseudo-instruction comes to (30_encoding.md R81), by running the commands it expands to. -/
def Obligations.PseudoInstructionEffects : Prop :=
  ∀ (s : State) (vd vs vs1 vs2 : Reg),
    (∀ x xs, xs.length + 1 ≤ s.capacity → runAll (Pseudo.ldw vd x xs).expand s = .next (s.afterWrite vd (x :: xs))) ∧
    runAll (Pseudo.clr vd).expand s = .next (s.afterWrite vd [0]) ∧
    (∀ a, s.Holds vs a → (mag a + mag a < 2 ^ (64 * a.length) ∨ a.length + 1 ≤ s.capacity) →
      ∃ t r, runAll (Pseudo.dbl vd vs).expand s = .next t ∧ t.Holds vd r ∧ mag r = 2 * mag a) ∧
    (∀ a, s.Holds vs a → (trim (wordsN (a.length + a.length) (mag a * mag a))).length ≤ s.capacity →
      ∃ t r, runAll (Pseudo.sqr vd vs).expand s = .next t ∧ t.Holds vd r ∧ mag r = mag a * mag a) ∧
    (∀ a, s.Holds vd a → runAll (Pseudo.trim vd).expand s = .next (s.afterWrite vd (trim a))) ∧
    (∀ a b, s.Holds vs1 a → s.Holds vs2 b → mag b ≤ mag a →
      runAll (Pseudo.subn vd vs1 vs2).expand s =
        .next (s.afterWrite vd (trim (wordsN a.length (mag a - mag b)))))

/-- The two lines 30_encoding.md R80 assembles, and two from 95_test_vectors.md section 3. -/
def Obligations.AssemblerExamples : Prop :=
  (assemble "ADD v1, v2, v3".toList).map (List.map encode) = some [⟨0x10123000, 0⟩] ∧
  (assemble "SHL v4, v4, 65".toList).map (List.map encode) = some [⟨0x20440000, 65⟩] ∧
  (assemble "MODW v1, v0, 0xFFFFFFFFFFFFFFFF".toList).map (List.map encode) =
    some [⟨0x41100000, 0xFFFFFFFFFFFFFFFF⟩] ∧
  (assemble "RDREM ; the remainder".toList).map (List.map encode) = some [⟨0x0B000000, 0⟩]

/-- Whatever the byte order of the host's bus is, the port words laid out in bytes in that order decode to what the words
themselves decode to: no rule of the block depends on HOST_BUS_BYTE_ORDER (20_memory.md R52). The byte layout is the model's
rendering of the integration (log entry 6). -/
def Obligations.BusByteOrderDoesNotMatter : Prop :=
  ∀ (order : ByteOrder) (cmd : CmdWord) (imm : Word),
    decodeBus order (busBytes order 4 cmd.toNat) (busBytes order 8 imm.toNat) = decode cmd imm
end

