-- ==== Sys2Proof/Laws/Decode.lean ====
section
/-! SUPPORT. Fields and words: reading a word's fields back, and what a pattern of the opcode map says of the fields. -/

namespace Sys2Proof

@[simp] theorem regField_toFin (r : Reg) : (regField r).toFin = r := rfl

theorem regField_injective {r q : Reg} (h : regField r = regField q) : r = q := congrArg BitVec.toFin h

/-- The fields of a word made from fields are those fields (30_encoding.md R71). -/
theorem cmdFields_word (f : Fields) : cmdFields f.word = f := by
  cases f with
  | mk opc rd rs1 rs2 rsv =>
    simp only [cmdFields, Fields.word, Fields.mk.injEq]
    refine ⟨?_, ?_, ?_, ?_, ?_⟩ <;> apply BitVec.eq_of_getLsbD_eq <;> intro i hi <;>
      simp only [BitVec.getLsbD_extractLsb', BitVec.getLsbD_append, hi, decide_true, Bool.true_and]
    · rw [if_neg (by omega), if_neg (by omega), if_neg (by omega), if_neg (by omega)]; congr 1; omega
    · rw [if_neg (by omega), if_neg (by omega), if_neg (by omega), if_pos (by omega)]; congr 1; omega
    · rw [if_neg (by omega), if_neg (by omega), if_pos (by omega)]; congr 1; omega
    · rw [if_neg (by omega), if_pos (by omega)]; congr 1; omega
    · rw [if_pos (by omega)]; congr 1; omega

/-- A word is made of its fields: the five fields cover all 32 bits (30_encoding.md R71). -/
theorem word_cmdFields (cmd : CmdWord) : (cmdFields cmd).word = cmd := by
  apply BitVec.eq_of_getLsbD_eq
  intro i hi
  simp only [cmdFields, Fields.word, BitVec.getLsbD_append, BitVec.getLsbD_extractLsb']
  repeat' split
  all_goals
    rw [decide_eq_true (by omega), Bool.true_and]
    congr 1
    omega

theorem word_injective {f g : Fields} (h : f.word = g.word) : f = g := by
  simpa only [cmdFields_word] using congrArg cmdFields h

/-- A mask made of fields masks each field by itself. With `word_injective` it turns a pattern of 30_encoding.md R75 into
equations between fields. -/
theorem word_and (f g : Fields) :
    f.word &&& g.word =
      Fields.word ⟨f.opc &&& g.opc, f.rd &&& g.rd, f.rs1 &&& g.rs1, f.rs2 &&& g.rs2, f.rsv &&& g.rsv⟩ := by
  apply BitVec.eq_of_getLsbD_eq
  intro i hi
  simp only [Fields.word, BitVec.getLsbD_append, BitVec.getLsbD_and]
  repeat' split
  all_goals rfl

/-- A pattern read field by field: what a row of the opcode map demands of a command word. -/
theorem selects_iff (value mask : Fields) (opc : BitVec 8) (cmd : CmdWord) :
    Pattern.selects ⟨opc, value.word, mask.word⟩ cmd = true ↔
      (cmdFields cmd).opc &&& mask.opc = value.opc ∧ (cmdFields cmd).rd &&& mask.rd = value.rd ∧
        (cmdFields cmd).rs1 &&& mask.rs1 = value.rs1 ∧ (cmdFields cmd).rs2 &&& mask.rs2 = value.rs2 ∧
        (cmdFields cmd).rsv &&& mask.rsv = value.rsv := by
  unfold Pattern.selects
  rw [beq_iff_eq]
  conv_lhs => rw [← word_cmdFields cmd, word_and]
  constructor
  · intro h
    rw [← word_injective h]
    exact ⟨rfl, rfl, rfl, rfl, rfl⟩
  · rintro ⟨h1, h2, h3, h4, h5⟩
    rw [h1, h2, h3, h4, h5]

end Sys2Proof
end

