-- ==== Sys2Proof/Laws/Value.lean ====
section
/-! SUPPORT. The word-sequence functions: lengths, words and magnitudes (10_state.md R28 to R30). -/

namespace Sys2Proof.Machine

@[simp] theorem lw_nil (i : Nat) : lw [] i = 0 := by simp [lw]

theorem lw_beyond {w : List Word} {i : Nat} (h : w.length ≤ i) : lw w i = 0 := by
  simp [lw, Nat.not_lt.mpr h]

theorem lw_cons (x : Word) (xs : List Word) (i : Nat) :
    lw (x :: xs) i = if i = xs.length then x else lw xs i := by
  by_cases hi : i < xs.length
  · have h1 : xs.length - i = (xs.length - 1 - i) + 1 := by omega
    have h2 : i < xs.length + 1 := by omega
    have h3 : i ≠ xs.length := by omega
    simp only [lw, List.length_cons, h2, hi, h3, if_true, if_false, Nat.add_sub_cancel, h1, List.getD_cons_succ]
  · by_cases he : i = xs.length
    · subst he; simp [lw]
    · have h2 : ¬ i < xs.length + 1 := by omega
      simp [lw, hi, he, h2]

@[simp] theorem length_collect (f : Nat → Word) (n : Nat) : (collect f n).length = n := by
  induction n with
  | zero => rfl
  | succ n ih => simp [collect, ih]

theorem lw_collect (f : Nat → Word) (n i : Nat) : lw (collect f n) i = if i < n then f i else 0 := by
  induction n with
  | zero => simp [collect]
  | succ n ih =>
    rw [collect, lw_cons, length_collect, ih]
    split
    · next h => simp [h]
    · next h => have : i < n + 1 ↔ i < n := by omega
                simp [this]

@[simp] theorem length_wordsN (n v : Nat) : (wordsN n v).length = n := length_collect _ n

@[simp] theorem mag_nil : mag [] = 0 := rfl
@[simp] theorem mag_cons (x : Word) (xs : List Word) : mag (x :: xs) = x.toNat * 2 ^ (64 * xs.length) + mag xs := rfl

/-- A magnitude fits the words that hold it. -/
theorem mag_lt (w : List Word) : mag w < 2 ^ (64 * w.length) := by
  induction w with
  | nil => simp
  | cons x xs ih =>
    have hx : x.toNat + 1 ≤ 2 ^ 64 := x.isLt
    have := Nat.mul_le_mul_right (2 ^ (64 * xs.length)) hx
    rw [mag_cons, List.length_cons, Nat.mul_add, Nat.pow_add, Nat.mul_comm (2 ^ (64 * xs.length))]
    simp only [Nat.mul_one]
    rw [Nat.add_mul] at this
    omega

theorem mag_append (u w : List Word) : mag (u ++ w) = mag u * 2 ^ (64 * w.length) + mag w := by
  induction u with
  | nil => simp
  | cons x xs ih =>
    simp only [List.cons_append, mag_cons, ih, List.length_append, Nat.mul_add, Nat.pow_add, Nat.add_mul]
    ring

/-- The words of a sequence are the base-2^64 digits of its magnitude. -/
theorem lw_eq_digit (w : List Word) (i : Nat) : lw w i = BitVec.ofNat 64 (mag w / 2 ^ (64 * i)) := by
  induction w with
  | nil => simp
  | cons x xs ih =>
    rw [lw_cons, mag_cons]
    have hp : 0 < 2 ^ (64 * i) := by positivity
    have hlt := mag_lt xs
    rcases Nat.lt_trichotomy i xs.length with h | h | h
    · obtain ⟨k, hk⟩ : ∃ k, 64 * xs.length = 64 * i + 64 * (k + 1) := ⟨xs.length - i - 1, by omega⟩
      have e : x.toNat * 2 ^ (64 * xs.length) = 2 ^ (64 * i) * (x.toNat * 2 ^ (64 * k) * 2 ^ 64) := by
        rw [hk, Nat.pow_add, Nat.mul_add, Nat.pow_add]; ring
      rw [if_neg (by omega), ih, e, Nat.mul_add_div hp]
      apply BitVec.eq_of_toNat_eq
      simp [BitVec.toNat_ofNat]
    · subst h
      rw [if_pos rfl, Nat.add_comm, Nat.add_mul_div_right _ _ hp, Nat.div_eq_of_lt hlt]
      simp
    · rw [if_neg (by omega), lw_beyond (by omega)]
      have h1 : mag (x :: xs) < 2 ^ (64 * i) :=
        lt_of_lt_of_le (mag_lt _) (Nat.pow_le_pow_right (by omega) (by simp; omega))
      rw [mag_cons] at h1
      rw [Nat.div_eq_of_lt h1]; rfl

/-- `words_n` gives the value modulo 2^(64n) back. -/
theorem mag_wordsN (n v : Nat) : mag (wordsN n v) = v % 2 ^ (64 * n) := by
  induction n with
  | zero => simp [wordsN, collect, Nat.mod_one]
  | succ n ih =>
    have h : wordsN (n + 1) v = BitVec.ofNat 64 (v / 2 ^ (64 * n)) :: wordsN n v := rfl
    rw [h, mag_cons, length_wordsN, ih, BitVec.toNat_ofNat, Nat.mul_add, Nat.pow_add, Nat.mul_one, Nat.mod_mul]
    ring

theorem lw_wordsN (n v i : Nat) :
    lw (wordsN n v) i = if i < n then BitVec.ofNat 64 (v / 2 ^ (64 * i)) else 0 := lw_collect _ n i

/-- A sequence is determined by its length and its magnitude. -/
theorem eq_of_mag_eq {u w : List Word} (hl : u.length = w.length) (hm : mag u = mag w) : u = w := by
  induction u generalizing w with
  | nil => cases w with
    | nil => rfl
    | cons => simp at hl
  | cons x xs ih =>
    cases w with
    | nil => simp at hl
    | cons y ys =>
      have hl' : xs.length = ys.length := by simpa using hl
      have h1 := mag_lt xs
      have h2 := mag_lt ys
      have hp : 0 < 2 ^ (64 * ys.length) := by positivity
      rw [mag_cons, mag_cons, hl'] at hm
      rw [hl'] at h1
      have hx : x.toNat = y.toNat := by
        have := congrArg (· / 2 ^ (64 * ys.length)) hm
        rwa [Nat.add_comm (x.toNat * _), Nat.add_comm (y.toNat * _), Nat.add_mul_div_right _ _ hp,
          Nat.add_mul_div_right _ _ hp, Nat.div_eq_of_lt h1, Nat.div_eq_of_lt h2, Nat.zero_add, Nat.zero_add] at this
      have hxy : x = y := BitVec.eq_of_toNat_eq hx
      subst hxy
      rw [ih hl' (by omega)]

/-- The way to show that a result is the sequence a result law names. -/
theorem eq_wordsN {w : List Word} {n v : Nat} (hl : w.length = n) (hm : mag w = v) : w = wordsN n v := by
  apply eq_of_mag_eq (by simpa using hl)
  rw [mag_wordsN, ← hm, Nat.mod_eq_of_lt (hl ▸ mag_lt w)]

/-- The same, word by word. -/
theorem collect_eq_wordsN {f : Nat → Word} {n v : Nat} (h : ∀ i < n, f i = BitVec.ofNat 64 (v / 2 ^ (64 * i))) :
    collect f n = wordsN n v := by
  induction n with
  | zero => rfl
  | succ n ih =>
    show f n :: collect f n = BitVec.ofNat 64 _ :: wordsN n v
    rw [h n (by omega), ih fun i hi => h i (by omega)]

theorem wordsN_mod (n v : Nat) : wordsN n (v % 2 ^ (64 * n)) = wordsN n v :=
  eq_of_mag_eq (by simp) (by simp [mag_wordsN])

@[simp] theorem mag_trim (w : List Word) : mag (trim w) = mag w := by
  fun_induction trim w with
  | case1 => rfl
  | case2 => rfl
  | case3 y ys ih => simpa using ih
  | case4 => rfl

theorem trim_ne_nil {w : List Word} (h : w ≠ []) : trim w ≠ [] := by
  fun_induction trim w with
  | case1 => exact absurd rfl h
  | case2 => simp
  | case3 y ys ih => exact ih (by simp)
  | case4 => simp

theorem length_trim_le (w : List Word) : (trim w).length ≤ w.length := by
  fun_induction trim w with
  | case1 => simp
  | case2 => simp
  | case3 y ys ih => simp at ih ⊢; omega
  | case4 => simp

theorem normalized_trim {w : List Word} (h : w ≠ []) : normalized (trim w) = true := by
  fun_induction trim w with
  | case1 => exact absurd rfl h
  | case2 => simp [normalized]
  | case3 y ys ih => exact ih (by simp)
  | case4 x y ys hx => simpa [normalized] using hx

theorem trim_of_normalized {w : List Word} (h : normalized w = true) : trim w = w := by
  fun_cases trim w with
  | case1 => rfl
  | case2 => rfl
  | case3 y ys => simp [normalized] at h
  | case4 => rfl

theorem pow_bitlen_le {v : Nat} (h : v ≠ 0) : 2 ^ (bitlen v - 1) ≤ v := by
  simpa [bitlen, h] using Nat.log2_self_le h

theorem lt_pow_bitlen (v : Nat) : v < 2 ^ bitlen v := by
  by_cases h : v = 0
  · simp [h, bitlen]
  · simpa [bitlen, h] using Nat.lt_log2_self (n := v)

theorem bitlen_le_iff (v k : Nat) : bitlen v ≤ k ↔ v < 2 ^ k := by
  constructor
  · intro h
    exact lt_of_lt_of_le (lt_pow_bitlen v) (Nat.pow_le_pow_right (by omega) h)
  · intro h
    by_cases hv : v = 0
    · simp [hv, bitlen]
    · by_contra hc
      have := pow_bitlen_le hv
      have := Nat.pow_le_pow_right (n := 2) (by omega) (show k ≤ bitlen v - 1 by omega)
      omega

end Sys2Proof.Machine
end

