-- ==== Sys2Proof/Laws/Families.lean ====
section
/-! SUPPORT. What the word primitives and the loops of the families compute, as exact integer equations (00_scope.md R10,
41_add_sub.md, 42_shift.md, 43_multiply.md, 44_divide.md). -/

namespace Sys2Proof.Machine

/-! ### The word primitives -/

/-- The sum with its carry is exact. -/
theorem addWithCarry_spec (a b : Word) :
    (addWithCarry a b).1.toNat + (addWithCarry a b).2.toNat * 2 ^ 64 = a.toNat + b.toNat := by
  have ha := a.isLt
  have hb := b.isLt
  simp only [addWithCarry, BitVec.toNat_ofNat]
  by_cases h : 2 ^ 64 ≤ a.toNat + b.toNat
  · rw [decide_eq_true h, Bool.toNat_true]; omega
  · rw [decide_eq_false h, Bool.toNat_false]; omega

/-- The difference with its borrow is exact. -/
theorem subWithBorrow_spec (a b : Word) :
    (subWithBorrow a b).1.toNat + b.toNat = a.toNat + (subWithBorrow a b).2.toNat * 2 ^ 64 := by
  have ha := a.isLt
  have hb := b.isLt
  simp only [subWithBorrow, BitVec.toNat_ofNat]
  by_cases h : a.toNat < b.toNat <;> simp [h] <;> omega

/-- The two halves make the product. -/
theorem widenMul_spec (a b : Word) :
    (widenMul a b).1.toNat * 2 ^ 64 + (widenMul a b).2.toNat = a.toNat * b.toNat := by
  have h : a.toNat * b.toNat < 2 ^ 64 * 2 ^ 64 := Nat.mul_lt_mul'' a.isLt b.isLt
  have h1 : a.toNat * b.toNat / 2 ^ 64 < 2 ^ 64 := Nat.div_lt_of_lt_mul h
  simp only [widenMul, BitVec.toNat_ofNat, Nat.mod_eq_of_lt h1]
  omega

/-- Inside the contract of 00_scope.md R10 the quotient and the remainder are exact. -/
theorem divmodWide_spec (n : BitVec 128) (d : Word) (hd : d ≠ 0) (h : n.toNat < d.toNat * 2 ^ 64) :
    (divmodWide n d).1.toNat = n.toNat / d.toNat ∧ (divmodWide n d).2.toNat = n.toNat % d.toNat := by
  have h0 : 0 < d.toNat := Nat.pos_of_ne_zero fun e => hd (BitVec.eq_of_toNat_eq (by simpa using e))
  have hq : n.toNat / d.toNat < 2 ^ 64 := Nat.div_lt_of_lt_mul h
  have hr := Nat.mod_lt n.toNat h0
  simp only [divmodWide, BitVec.toNat_ofNat, Nat.mod_eq_of_lt hq, true_and]
  exact Nat.mod_eq_of_lt (lt_trans hr d.isLt)

@[simp] theorem carryWord_toNat (c : Bool) : (carryWord c).toNat = c.toNat := by cases c <;> rfl

/-- One word of the adder is exact: the two carries are never both 1 (41_add_sub.md R131). -/
theorem addStep_spec (a b : Word) (c : Bool) :
    (addStep a b c).1.toNat + (addStep a b c).2.toNat * 2 ^ 64 = a.toNat + b.toNat + c.toNat := by
  have h1 := addWithCarry_spec a b
  have h2 := addWithCarry_spec (addWithCarry a b).1 (carryWord c)
  have ha := a.isLt
  have hb := b.isLt
  have hc := Bool.toNat_le c
  simp only [addStep, carryWord_toNat] at *
  cases e1 : (addWithCarry a b).2 <;> cases e2 : (addWithCarry (addWithCarry a b).1 (carryWord c)).2 <;>
    simp [e1, e2] at h1 h2 ⊢ <;> omega

/-- One word of the subtractor is exact: the two borrows are never both 1 (41_add_sub.md R133). -/
theorem subStep_spec (a b : Word) (br : Bool) :
    (subStep a b br).1.toNat + b.toNat + br.toNat = a.toNat + (subStep a b br).2.toNat * 2 ^ 64 := by
  have h1 := subWithBorrow_spec a b
  have h2 := subWithBorrow_spec (subWithBorrow a b).1 (carryWord br)
  have ha := a.isLt
  have hb := b.isLt
  have hl := (subWithBorrow (subWithBorrow a b).1 (carryWord br)).1.isLt
  have hc := Bool.toNat_le br
  simp only [subStep, carryWord_toNat] at *
  cases e1 : (subWithBorrow a b).2 <;> cases e2 : (subWithBorrow (subWithBorrow a b).1 (carryWord br)).2 <;>
    simp [e1, e2] at h1 h2 ⊢ <;> omega

/-! ### Lengths -/

@[simp] theorem length_addSteps (a b : List Word) (n : Nat) : (addSteps a b n).1.length = n := by
  induction n with
  | zero => rfl
  | succ n ih => simp [addSteps, ih]

@[simp] theorem length_subSteps (a b : List Word) (n : Nat) : (subSteps a b n).1.length = n := by
  induction n with
  | zero => rfl
  | succ n ih => simp [subSteps, ih]

@[simp] theorem length_shiftLeftWords (a : List Word) (q k : Nat) : (shiftLeftWords a q k).length = a.length :=
  length_collect _ _

@[simp] theorem length_shiftRightWords (a : List Word) (q k : Nat) : (shiftRightWords a q k).length = a.length :=
  length_collect _ _

@[simp] theorem length_chunkLeft (a : List Word) (c : Nat) : (chunkLeft a c).length = a.length := length_collect _ _

@[simp] theorem length_chunkRight (a : List Word) (c : Nat) : (chunkRight a c).length = a.length := length_collect _ _

theorem length_padTo {a : List Word} {n : Nat} (h : a.length ≤ n) : (padTo a n).length = n := by
  simp [padTo]; omega

theorem length_le_grow (a : List Word) (s : Nat) : a.length ≤ grow a s := by
  unfold grow; split <;> omega

@[simp] theorem mag_padTo (a : List Word) (n : Nat) : mag (padTo a n) = mag a := by
  have h : ∀ k, mag (List.replicate k 0#64) = 0 := fun k => by
    induction k with
    | zero => rfl
    | succ k ih => simp [List.replicate_succ, ih]
  simp [padTo, mag_append, h]

@[simp] theorem length_mulRow (x : Word) (b : List Word) (n : Nat) : (mulRow x b n).1.length = n := by
  induction n with
  | zero => rfl
  | succ n ih => simp [mulRow, ih]

theorem mulWords_ne_nil {a b : List Word} (h : a ≠ []) : mulWords a b ≠ [] := by
  apply trim_ne_nil
  apply List.ne_nil_of_length_pos
  have := List.length_pos_of_ne_nil h
  rw [length_wordsN]
  omega

@[simp] theorem length_divWalkFrom (d r : Word) (a : List Word) : (divWalkFrom d r a).1.length = a.length := by
  induction a generalizing r with
  | nil => rfl
  | cons x xs ih => simp [divWalkFrom, ih]

@[simp] theorem length_divWalk (a : List Word) (d : Word) : (divWalk a d).1.length = a.length :=
  length_divWalkFrom _ _ _

/-! ### The loops -/

/-- The lowest `n + 1` words are the lowest `n` with the word at index `n` above them. -/
theorem mag_mod_succ (a : List Word) (n : Nat) :
    mag a % 2 ^ (64 * (n + 1)) = mag a % 2 ^ (64 * n) + (lw a n).toNat * 2 ^ (64 * n) := by
  rw [lw_eq_digit, BitVec.toNat_ofNat, Nat.mul_add, Nat.pow_add, Nat.mul_one, Nat.mod_mul]
  ring

theorem mag_mod_of_le {a : List Word} {n : Nat} (h : a.length ≤ n) : mag a % 2 ^ (64 * n) = mag a :=
  Nat.mod_eq_of_lt (lt_of_lt_of_le (mag_lt a) (Nat.pow_le_pow_right (by omega) (by omega)))

/-- The adder's words and carry after `n` steps are the sum of the lowest `n` words. -/
theorem addSteps_spec (a b : List Word) (n : Nat) :
    mag (addSteps a b n).1 + (addSteps a b n).2.toNat * 2 ^ (64 * n) =
      mag a % 2 ^ (64 * n) + mag b % 2 ^ (64 * n) := by
  induction n with
  | zero => simp [addSteps, Nat.mod_one]
  | succ n ih =>
    have h := addStep_spec (lw a n) (lw b n) (addSteps a b n).2
    rw [mag_mod_succ, mag_mod_succ, addSteps, mag_cons, length_addSteps]
    have e : 2 ^ (64 * (n + 1)) = 2 ^ 64 * 2 ^ (64 * n) := by rw [← Nat.pow_add]; congr 1; omega
    rw [e]
    have h' := congrArg (· * 2 ^ (64 * n)) h
    simp only [Nat.add_mul] at h'
    rw [← Nat.mul_assoc]
    dsimp only at *
    omega

/-- The subtractor's words and borrow after `n` steps are the difference of the lowest `n` words. -/
theorem subSteps_spec (a b : List Word) (n : Nat) :
    mag (subSteps a b n).1 + mag b % 2 ^ (64 * n) =
      mag a % 2 ^ (64 * n) + (subSteps a b n).2.toNat * 2 ^ (64 * n) := by
  induction n with
  | zero => simp [subSteps, Nat.mod_one]
  | succ n ih =>
    have h := subStep_spec (lw a n) (lw b n) (subSteps a b n).2
    rw [mag_mod_succ, mag_mod_succ, subSteps, mag_cons, length_subSteps]
    have e : 2 ^ (64 * (n + 1)) = 2 ^ 64 * 2 ^ (64 * n) := by rw [← Nat.pow_add]; congr 1; omega
    rw [e]
    have h' := congrArg (· * 2 ^ (64 * n)) h
    simp only [Nat.add_mul] at h'
    rw [← Nat.mul_assoc]
    dsimp only at *
    omega

/-- The scratch words and the running carry after `n` steps are the word times the lowest `n` words. -/
theorem mulRow_spec (x : Word) (b : List Word) (n : Nat) :
    mag (mulRow x b n).1 + (mulRow x b n).2.toNat * 2 ^ (64 * n) = x.toNat * (mag b % 2 ^ (64 * n)) := by
  induction n with
  | zero => simp [mulRow, Nat.mod_one]
  | succ n ih =>
    have hp := widenMul_spec x (lw b n)
    have hx : x.toNat ≤ 2 ^ 64 - 1 := by have := x.isLt; omega
    have hb : (lw b n).toNat ≤ 2 ^ 64 - 1 := by have := (lw b n).isLt; omega
    have hc : (mulRow x b n).2.toNat ≤ 2 ^ 64 - 1 := by have := (mulRow x b n).2.isLt; omega
    have hm := Nat.mul_le_mul hx hb
    rw [mag_mod_succ, mulRow, mag_cons, length_mulRow]
    have e : 2 ^ (64 * (n + 1)) = 2 ^ 64 * 2 ^ (64 * n) := by rw [← Nat.pow_add]; congr 1; omega
    rw [e]
    dsimp only
    rw [hp]
    generalize hP : x.toNat * (lw b n).toNat + (mulRow x b n).2.toNat = p
    have hlt : p / 2 ^ 64 < 2 ^ 64 := Nat.div_lt_of_lt_mul (by omega)
    rw [BitVec.toNat_ofNat, BitVec.toNat_ofNat, Nat.mod_eq_of_lt hlt, Nat.mul_add, ← ih]
    have hd := Nat.mod_add_div p (2 ^ 64)
    calc p % 2 ^ 64 * 2 ^ (64 * n) + mag (mulRow x b n).1 + p / 2 ^ 64 * (2 ^ 64 * 2 ^ (64 * n))
        = (p % 2 ^ 64 + 2 ^ 64 * (p / 2 ^ 64)) * 2 ^ (64 * n) + mag (mulRow x b n).1 := by ring
      _ = _ := by rw [hd, ← hP]; ring

/-- The scratch buffer holds the whole partial product. -/
theorem mag_scratch (x : Word) (b : List Word) : mag (scratch x b) = x.toNat * mag b := by
  have h := mulRow_spec x b b.length
  rw [mag_mod_of_le (le_refl _)] at h
  simp only [scratch, mag_cons, length_mulRow]
  omega

/-- The accumulator is the product of the lowest words of the left operand with the right one. -/
theorem mulAcc_spec (a b : List Word) (n : Nat) : mulAcc a b n = mag a % 2 ^ (64 * n) * mag b := by
  induction n with
  | zero => simp [mulAcc, Nat.mod_one]
  | succ n ih => rw [mulAcc, ih, mag_scratch, mag_mod_succ]; ring

/-- The long division is exact: quotient, remainder and the bound of the remainder (44_divide.md R190). -/
theorem divWalkFrom_spec (d : Word) (hd : d ≠ 0) (a : List Word) (r : Word) (hr : r.toNat < d.toNat) :
    mag (divWalkFrom d r a).1 * d.toNat + (divWalkFrom d r a).2.toNat = r.toNat * 2 ^ (64 * a.length) + mag a ∧
      (divWalkFrom d r a).2.toNat < d.toNat := by
  induction a generalizing r with
  | nil => simp [divWalkFrom, hr]
  | cons x xs ih =>
    have hn : (r ++ x).toNat = r.toNat * 2 ^ 64 + x.toNat := by
      rw [BitVec.toNat_append, ← Nat.shiftLeft_add_eq_or_of_lt x.isLt, Nat.shiftLeft_eq]
    have hlt : (r ++ x).toNat < d.toNat * 2 ^ 64 := by
      rw [hn]; have := x.isLt; omega
    obtain ⟨hq, hm⟩ := divmodWide_spec (r ++ x) d hd hlt
    have h0 : 0 < d.toNat := by omega
    obtain ⟨h1, h2⟩ := ih (divmodWide (r ++ x) d).2 (by rw [hm]; exact Nat.mod_lt _ h0)
    refine ⟨?_, h2⟩
    have hdm := Nat.div_add_mod (r.toNat * 2 ^ 64 + x.toNat) d.toNat
    rw [hm, hn] at h1
    simp only [divWalkFrom, mag_cons, length_divWalkFrom, hq, hn, List.length_cons, Nat.mul_add, Nat.pow_add, Nat.add_mul]
    rw [Nat.add_assoc, h1]
    rw [show (r.toNat * 2 ^ 64 + x.toNat) / d.toNat * 2 ^ (64 * xs.length) * d.toNat +
        ((r.toNat * 2 ^ 64 + x.toNat) % d.toNat * 2 ^ (64 * xs.length) + mag xs) =
        (d.toNat * ((r.toNat * 2 ^ 64 + x.toNat) / d.toNat) + (r.toNat * 2 ^ 64 + x.toNat) % d.toNat) *
          2 ^ (64 * xs.length) + mag xs by ring, hdm]
    ring

end Sys2Proof.Machine
end

