-- ==== Sys2Proof/Laws/State.lean ====
section
/-! SUPPORT. What each update of the state leaves of each field, so that no later proof unfolds a record update. -/

namespace Sys2Proof.Machine

@[simp] theorem writeReg_v (s : State) (r : Reg) (w : List Word) : (s.writeReg r w).v = s.v.set r ⟨w, true⟩ := rfl

theorem writeReg_get_same (s : State) (r : Reg) (w : List Word) : (s.writeReg r w).v[r] = ⟨w, true⟩ := by
  simp [State.writeReg]

theorem writeReg_get_other (s : State) (r q : Reg) (w : List Word) (h : r ≠ q) : (s.writeReg r w).v[q] = s.v[q] := by
  have : (r : Nat) ≠ q := fun e => h (Fin.ext e)
  simp [State.writeReg, this]

@[simp] theorem writeReg_rem (s : State) (r : Reg) (w : List Word) : (s.writeReg r w).rem = s.rem := rfl
@[simp] theorem writeReg_status (s : State) (r : Reg) (w : List Word) : (s.writeReg r w).status = s.status := rfl
@[simp] theorem writeReg_response (s : State) (r : Reg) (w : List Word) : (s.writeReg r w).response = s.response := rfl
@[simp] theorem writeReg_inputs (s : State) (r : Reg) (w : List Word) : (s.writeReg r w).inputs = s.inputs := rfl
@[simp] theorem writeReg_capacity (s : State) (r : Reg) (w : List Word) : (s.writeReg r w).capacity = s.capacity := rfl

@[simp] theorem trimSource_rem (s : State) (r : Reg) : (s.trimSource r).rem = s.rem := rfl
@[simp] theorem trimSource_status (s : State) (r : Reg) : (s.trimSource r).status = s.status := rfl
@[simp] theorem trimSource_response (s : State) (r : Reg) : (s.trimSource r).response = s.response := rfl
@[simp] theorem trimSource_inputs (s : State) (r : Reg) : (s.trimSource r).inputs = s.inputs := rfl
@[simp] theorem trimSource_capacity (s : State) (r : Reg) : (s.trimSource r).capacity = s.capacity := rfl

theorem trimSource_get (s : State) (r q : Reg) :
    (s.trimSource r).v[q] = if r = q then ⟨trim s.v[q].words, s.v[q].valid⟩ else s.v[q] := by
  split
  · next h => subst h; simp [State.trimSource]
  · next h =>
    have : (r : Nat) ≠ q := fun e => h (Fin.ext e)
    simp [State.trimSource, this]

/-- Normalizing a source keeps every valid bit. -/
theorem trimSource_valid (s : State) (r q : Reg) : (s.trimSource r).v[q].valid = s.v[q].valid := by
  rw [trimSource_get]; split <;> rfl

/-- A register that holds `w` holds `trim w` once it is normalized. -/
theorem trimSource_holds {s : State} {r : Reg} {w : List Word} (h : s.Holds r w) :
    (s.trimSource r).Holds r (trim w) := by
  have h' : s.v[r] = ⟨w, true⟩ := h
  show (s.trimSource r).v[r] = _
  rw [trimSource_get, if_pos rfl, h']

@[simp] theorem apply_v_none (s : State) (m : Option Word) (o : Word) : (s.apply ⟨none, m, o⟩).v = s.v := rfl
@[simp] theorem apply_v_some (s : State) (r : Reg) (w : List Word) (m : Option Word) (o : Word) :
    (s.apply ⟨some (r, w), m, o⟩).v = s.v.set r ⟨w, true⟩ := rfl
@[simp] theorem apply_rem (s : State) (w : Writes) : (s.apply w).rem = w.rem.getD s.rem := by
  unfold State.apply; cases w.reg <;> rfl
@[simp] theorem apply_status (s : State) (w : Writes) : (s.apply w).status = s.status := by
  unfold State.apply; cases w.reg <;> rfl
@[simp] theorem apply_response (s : State) (w : Writes) : (s.apply w).response = s.response := by
  unfold State.apply; cases w.reg <;> rfl
@[simp] theorem apply_inputs (s : State) (w : Writes) : (s.apply w).inputs = s.inputs := by
  unfold State.apply; cases w.reg <;> rfl

@[simp] theorem respond_v (s : State) (c : Resp) (o : Word) : (s.respond c o).v = s.v := rfl
@[simp] theorem respond_rem (s : State) (c : Resp) (o : Word) : (s.respond c o).rem = s.rem := rfl
@[simp] theorem respond_status (s : State) (c : Resp) (o : Word) : (s.respond c o).status = s.status.after c := rfl
@[simp] theorem respond_response (s : State) (c : Resp) (o : Word) : (s.respond c o).response = some ⟨c, o⟩ := rfl
@[simp] theorem respond_inputs (s : State) (c : Resp) (o : Word) : (s.respond c o).inputs = s.inputs := rfl

@[simp] theorem after_lastResp (st : Status) (c : Resp) : (st.after c).lastResp = c := by cases c <;> rfl
@[simp] theorem after_maxw (st : Status) (c : Resp) : (st.after c).maxw = st.maxw := by cases c <;> rfl
@[simp] theorem after_ok_fault (st : Status) : (st.after .ok).fault = st.fault := rfl
@[simp] theorem after_ok_firstErr (st : Status) : (st.after .ok).firstErr = st.firstErr := rfl
@[simp] theorem after_failed_fault (st : Status) (c : Cause) : (st.after (.failed c)).fault = true := rfl
@[simp] theorem after_failed_firstErr (st : Status) (c : Cause) :
    (st.after (.failed c)).firstErr = if st.fault then st.firstErr else .failed c := rfl

/-- FAULT and FIRST_ERR are sticky (60_exceptions.md R230). -/
theorem after_sticky (st : Status) (c : Resp) (h : st.fault = true) :
    (st.after c).fault = true ∧ (st.after c).firstErr = st.firstErr := by
  cases c <;> simp [h]

@[simp] theorem takeReset_v (s : State) : s.takeReset.v = State.reset.v := rfl
@[simp] theorem takeReset_rem (s : State) : s.takeReset.rem = 0 := rfl
@[simp] theorem takeReset_status (s : State) : s.takeReset.status = Status.reset := rfl
@[simp] theorem takeReset_response (s : State) : s.takeReset.response = none := rfl
@[simp] theorem takeReset_inputs (s : State) : s.takeReset.inputs = s.inputs := rfl

@[simp] theorem issue_v (s : State) (q : Request) : (s.issue q).v = s.v := rfl
@[simp] theorem issue_rem (s : State) (q : Request) : (s.issue q).rem = s.rem := rfl
@[simp] theorem issue_status (s : State) (q : Request) : (s.issue q).status = s.status := rfl
@[simp] theorem issue_response (s : State) (q : Request) : (s.issue q).response = s.response := rfl
@[simp] theorem issue_inputs (s : State) (q : Request) : (s.issue q).inputs = .command q :: s.inputs := rfl

/-- The command cycle in the terms of the claims: a failure. -/
@[simp] theorem cycle_raise (s : State) (c : Cause) : s.cycle (.raise c) = s.afterFail c := rfl
/-- The command cycle in the terms of the claims: NOP's empty commit. -/
@[simp] theorem cycle_commit_nothing (s : State) : s.cycle (.commit {}) = s.afterAnswer 0 := rfl
/-- The command cycle in the terms of the claims: a register write. -/
@[simp] theorem cycle_write (s : State) (rd : Reg) (w : List Word) : s.cycle (.write rd w) = s.afterWrite rd w := rfl
/-- The command cycle in the terms of the claims: a register write with REM. -/
@[simp] theorem cycle_writeRem (s : State) (rd : Reg) (w : List Word) (r : Word) :
    s.cycle (.writeRem rd w r) = s.afterDivide rd w r := rfl
/-- The command cycle in the terms of the claims: an answer. -/
@[simp] theorem cycle_answer (s : State) (o : Word) : s.cycle (.answer o) = s.afterAnswer o := rfl

@[simp] theorem perform_eq (s : State) (e : Effect) : s.perform e = .next (s.cycle e) := rfl

@[simp] theorem reset_v : State.reset.v = Vector.ofFn VReg.reset := rfl
theorem reset_get (r : Reg) : State.reset.v[r] = VReg.reset r := by simp
@[simp] theorem reset_inputs : State.reset.inputs = [] := rfl
@[simp] theorem reset_response : State.reset.response = none := rfl

@[simp] theorem afterWrite_v (s : State) (rd : Reg) (w : List Word) : (s.afterWrite rd w).v = s.v.set rd ⟨w, true⟩ := rfl

theorem afterWrite_get_same (s : State) (rd : Reg) (w : List Word) : (s.afterWrite rd w).v[rd] = ⟨w, true⟩ := by
  simp [State.afterWrite]
theorem afterWrite_get_other (s : State) (rd q : Reg) (w : List Word) (h : rd ≠ q) :
    (s.afterWrite rd w).v[q] = s.v[q] := by
  have : (rd : Nat) ≠ q := fun e => h (Fin.ext e)
  simp [State.afterWrite, this]
@[simp] theorem afterWrite_rem (s : State) (rd : Reg) (w : List Word) : (s.afterWrite rd w).rem = s.rem := rfl
@[simp] theorem afterWrite_inputs (s : State) (rd : Reg) (w : List Word) : (s.afterWrite rd w).inputs = s.inputs := rfl
@[simp] theorem afterWrite_capacity (s : State) (rd : Reg) (w : List Word) :
    (s.afterWrite rd w).capacity = s.capacity := rfl
@[simp] theorem afterWrite_response (s : State) (rd : Reg) (w : List Word) :
    (s.afterWrite rd w).response = some ⟨.ok, 0⟩ := rfl
@[simp] theorem afterWrite_fault (s : State) (rd : Reg) (w : List Word) :
    (s.afterWrite rd w).status.fault = s.status.fault := rfl
@[simp] theorem afterWrite_firstErr (s : State) (rd : Reg) (w : List Word) :
    (s.afterWrite rd w).status.firstErr = s.status.firstErr := rfl
@[simp] theorem afterWrite_lastResp (s : State) (rd : Reg) (w : List Word) :
    (s.afterWrite rd w).status.lastResp = .ok := rfl
@[simp] theorem afterWrite_maxw (s : State) (rd : Reg) (w : List Word) :
    (s.afterWrite rd w).status.maxw = s.status.maxw := rfl
@[simp] theorem afterDivide_v (s : State) (rd : Reg) (w : List Word) (r : Word) :
    (s.afterDivide rd w r).v = (s.afterWrite rd w).v := rfl
@[simp] theorem afterDivide_rem (s : State) (rd : Reg) (w : List Word) (r : Word) :
    (s.afterDivide rd w r).rem = r := rfl
@[simp] theorem afterDivide_status (s : State) (rd : Reg) (w : List Word) (r : Word) :
    (s.afterDivide rd w r).status = (s.afterWrite rd w).status := rfl
@[simp] theorem afterDivide_response (s : State) (rd : Reg) (w : List Word) (r : Word) :
    (s.afterDivide rd w r).response = some ⟨.ok, 0⟩ := rfl
@[simp] theorem afterDivide_inputs (s : State) (rd : Reg) (w : List Word) (r : Word) :
    (s.afterDivide rd w r).inputs = s.inputs := rfl
@[simp] theorem afterAnswer_v (s : State) (o : Word) : (s.afterAnswer o).v = s.v := rfl
@[simp] theorem afterAnswer_rem (s : State) (o : Word) : (s.afterAnswer o).rem = s.rem := rfl
@[simp] theorem afterAnswer_inputs (s : State) (o : Word) : (s.afterAnswer o).inputs = s.inputs := rfl
@[simp] theorem afterAnswer_capacity (s : State) (o : Word) : (s.afterAnswer o).capacity = s.capacity := rfl
@[simp] theorem afterAnswer_response (s : State) (o : Word) : (s.afterAnswer o).response = some ⟨.ok, o⟩ := rfl
@[simp] theorem afterAnswer_fault (s : State) (o : Word) : (s.afterAnswer o).status.fault = s.status.fault := rfl
@[simp] theorem afterAnswer_firstErr (s : State) (o : Word) :
    (s.afterAnswer o).status.firstErr = s.status.firstErr := rfl
@[simp] theorem afterAnswer_lastResp (s : State) (o : Word) : (s.afterAnswer o).status.lastResp = .ok := rfl
@[simp] theorem afterAnswer_maxw (s : State) (o : Word) : (s.afterAnswer o).status.maxw = s.status.maxw := rfl
@[simp] theorem afterFail_v (s : State) (c : Cause) : (s.afterFail c).v = s.v := rfl
@[simp] theorem afterFail_rem (s : State) (c : Cause) : (s.afterFail c).rem = s.rem := rfl
@[simp] theorem afterFail_inputs (s : State) (c : Cause) : (s.afterFail c).inputs = s.inputs := rfl
@[simp] theorem afterFail_capacity (s : State) (c : Cause) : (s.afterFail c).capacity = s.capacity := rfl
@[simp] theorem afterFail_response (s : State) (c : Cause) : (s.afterFail c).response = some ⟨.failed c, 0⟩ := rfl
@[simp] theorem afterFail_fault (s : State) (c : Cause) : (s.afterFail c).status.fault = true := rfl
@[simp] theorem afterFail_firstErr (s : State) (c : Cause) :
    (s.afterFail c).status.firstErr = if s.status.fault then s.status.firstErr else .failed c := rfl
@[simp] theorem afterFail_lastResp (s : State) (c : Cause) : (s.afterFail c).status.lastResp = .failed c := rfl
@[simp] theorem afterFail_maxw (s : State) (c : Cause) : (s.afterFail c).status.maxw = s.status.maxw := rfl

end Sys2Proof.Machine
end

