-- ==== Sys2Proof/Laws/Ops.lean ====
section
/-! SUPPORT. What each shared operation can do, said once: reading a source, the capacity check, fetching the host's next
input, and a step. -/

namespace Sys2Proof.Machine

theorem valid_of_holds {s : State} {r : Reg} {a : List Word} (h : s.Holds r a) : s.v[r].valid = true := by rw [h]

/-- A register that is valid holds its sequence. -/
theorem holds_of_valid {s : State} {r : Reg} (h : s.v[r].valid = true) : s.Holds r s.v[r].words := by
  show s.v[r] = ⟨s.v[r].words, true⟩
  rw [← h]

/-- A valid source is handed to the rest of the command. -/
theorem source_of_holds {s : State} {r : Reg} {a : List Word} (h : s.Holds r a) (k : List Word → Effect) :
    s.source r k = k a := by
  unfold State.source
  rw [h]
  rfl

/-- A source that is not valid fails the command with UNINIT (60_exceptions.md R223). -/
theorem source_of_invalid {s : State} {r : Reg} (h : s.v[r].valid = false) (k : List Word → Effect) :
    s.source r k = .raise .uninit := by
  unfold State.source
  rw [h]
  rfl

theorem sources_of_holds {s : State} {r q : Reg} {a b : List Word} (ha : s.Holds r a) (hb : s.Holds q b)
    (k : List Word → List Word → Effect) : s.sources r q k = k a b := by
  unfold State.sources
  rw [source_of_holds ha, source_of_holds hb]

/-- Either of two sources not valid fails the command with UNINIT. -/
theorem sources_of_invalid {s : State} {r q : Reg} (h : s.v[r].valid = false ∨ s.v[q].valid = false)
    (k : List Word → List Word → Effect) : s.sources r q k = .raise .uninit := by
  unfold State.sources
  rcases h with h | h
  · exact source_of_invalid h _
  · unfold State.source; split
    · rw [h]; rfl
    · rfl

theorem within_of_le {s : State} {n : Nat} (h : n ≤ s.capacity) (k : Unit → Effect) : s.within n k = k () :=
  if_neg (by omega)

theorem within_of_lt {s : State} {n : Nat} (h : s.capacity < n) (k : Unit → Effect) :
    s.within n k = .raise .capacity := if_pos h

/-- Everything a step can do: hold the state, take a reset, answer ILLEGAL, or run the command the host issued. -/
theorem step_cases {s t : State} (h : step s = .next t) :
    (s.inputs = [] ∧ t = s) ∨
    (∃ a rest, s.inputs = .reset a :: rest ∧ t = { State.reset with inputs := rest }) ∨
    (∃ q rest why, s.inputs = .command q :: rest ∧ decode q.cmd q.imm = .error why ∧
      t = { s with inputs := rest }.afterFail .illegal) ∨
    (∃ q rest i, s.inputs = .command q :: rest ∧ decode q.cmd q.imm = .ok i ∧
      exec i { s with inputs := rest } = .next t) := by
  unfold step State.fetch at h
  split at h
  · next u e =>
    have ht : u = t := by injection h
    subst ht
    split at e
    · next hi => exact .inl ⟨hi, by injection e with e; exact e.symm⟩
    · next a rest hi => exact .inr (.inl ⟨a, rest, hi, by injection e with e; exact e.symm⟩)
    · next q rest hi =>
      split at e
      · cases e
      · next why hd => exact .inr (.inr (.inl ⟨q, rest, why, hi, hd, by injection e with e; exact e.symm⟩))
  · next i u e =>
    split at e
    · cases e
    · cases e
    · next q rest hi =>
      split at e
      · next j hd =>
        injection e with e1 e2
        subst e1; subst e2
        exact .inr (.inr (.inr ⟨q, rest, j, hi, hd, h⟩))
      · cases e

end Sys2Proof.Machine
end

