-- ==== Sys2Proof/Laws/Exec.lean ====
section
/-! SUPPORT. What `exec` can do, said once for all commands: the inversion from which frames and invariants follow. -/

namespace Sys2Proof.Machine

/-- What the effect of a command may be: a failure that is not ILLEGAL, or writes to its own destination, to REM exactly if
it divides, and an `out` word only if it is a read command. -/
def AllowedEffect (i : Instr) : Effect → Prop
  | .raise c => c ≠ .illegal
  | .commit w => w.reg.map Prod.fst = i.dest ∧ w.rem.isSome = i.divides ∧ (i.answers = false → w.out = 0)

theorem allowed_source {s : State} {i : Instr} {r : Reg} {k : List Word → Effect} (h : ∀ a, AllowedEffect i (k a)) :
    AllowedEffect i (s.source r k) := by
  unfold State.source
  split
  · exact h _
  · exact fun e => by cases e

theorem allowed_within {s : State} {i : Instr} {n : Nat} {k : Unit → Effect} (h : AllowedEffect i (k ())) :
    AllowedEffect i (s.within n k) := by
  unfold State.within
  split
  · exact fun e => by cases e
  · exact h

/-- Every command is one command cycle over an allowed effect, so it always has a next state. -/
theorem exec_shape (i : Instr) (s : State) : ∃ e, exec i s = .next (s.cycle e) ∧ AllowedEffect i e := by
  cases i with
  | nop => exact ⟨_, rfl, rfl, rfl, fun _ => rfl⟩
  | ldi => exact ⟨_, rfl, rfl, rfl, fun _ => rfl⟩
  | appw => exact ⟨_, rfl, allowed_source fun _ => allowed_within ⟨rfl, rfl, fun _ => rfl⟩⟩
  | mov => exact ⟨_, rfl, allowed_source fun _ => ⟨rfl, rfl, fun _ => rfl⟩⟩
  | rdw => exact ⟨_, rfl, allowed_source fun _ => ⟨rfl, rfl, fun h => by cases h⟩⟩
  | rdlen => exact ⟨_, rfl, allowed_source fun _ => ⟨rfl, rfl, fun h => by cases h⟩⟩
  | rdstat => exact ⟨_, rfl, rfl, rfl, fun h => by cases h⟩
  | rdrem => exact ⟨_, rfl, rfl, rfl, fun h => by cases h⟩
  | add =>
    refine ⟨_, rfl, allowed_source fun a => allowed_source fun b => ?_⟩
    dsimp only [addEffect]
    split
    · exact allowed_within ⟨rfl, rfl, fun _ => rfl⟩
    · exact ⟨rfl, rfl, fun _ => rfl⟩
  | sub =>
    refine ⟨_, rfl, allowed_source fun a => allowed_source fun b => ?_⟩
    dsimp only [subEffect]
    split
    · exact fun h => by cases h
    · exact ⟨rfl, rfl, fun _ => rfl⟩
  | shl => exact ⟨_, rfl, allowed_source fun _ => ⟨rfl, rfl, fun _ => rfl⟩⟩
  | shr => exact ⟨_, rfl, allowed_source fun _ => ⟨rfl, rfl, fun _ => rfl⟩⟩
  | shlx => exact ⟨_, rfl, allowed_source fun _ => allowed_within ⟨rfl, rfl, fun _ => rfl⟩⟩
  | cshl => exact ⟨_, rfl, allowed_source fun _ => ⟨rfl, rfl, fun _ => rfl⟩⟩
  | cshr => exact ⟨_, rfl, allowed_source fun _ => ⟨rfl, rfl, fun _ => rfl⟩⟩
  | mul => exact ⟨_, rfl, allowed_source fun _ => allowed_source fun _ => allowed_within ⟨rfl, rfl, fun _ => rfl⟩⟩
  | divw =>
    refine ⟨_, rfl, allowed_source fun a => ?_⟩
    split
    · exact fun h => by cases h
    · exact ⟨rfl, rfl, fun _ => rfl⟩
  | modw =>
    refine ⟨_, rfl, allowed_source fun a => ?_⟩
    split
    · exact fun h => by cases h
    · exact ⟨rfl, rfl, fun _ => rfl⟩
  | norm => exact ⟨_, rfl, allowed_source fun _ => ⟨rfl, rfl, fun _ => rfl⟩⟩

end Sys2Proof.Machine
end

