-- ==== Sys2Proof/Laws/PerInstr.lean ====
section
/-! SUPPORT. What holds of each command as a term of the syntax, one lemma for each constructor. -/

/-- The family Encoding: the fields a command is encoded with are of its form, so that every field the form does not use, and
`RSV`, is zero, and its opcode is in the opcode map (30_encoding.md R73, R75). -/
def Sys2Proof.Laws.Encoding.Statement (i : Sys2Proof.Instr) : Prop :=
  i.fields.WellFormed i.form ∧ i.fields.opc ∈ Sys2Proof.opcodeMap.map Sys2Proof.Pattern.opc

namespace Sys2Proof.Laws.Encoding

theorem nop : Statement .nop := ⟨rfl, of_decide_eq_true rfl⟩
theorem ldi (rd : Reg) (imm : Word) : Statement (.ldi rd imm) := ⟨rfl, of_decide_eq_true rfl⟩
theorem appw (rd : Reg) (imm : Word) : Statement (.appw rd imm) := ⟨rfl, of_decide_eq_true rfl⟩
theorem mov (rd rs1 : Reg) : Statement (.mov rd rs1) := ⟨rfl, of_decide_eq_true rfl⟩
theorem rdw (rs1 : Reg) (imm : Word) : Statement (.rdw rs1 imm) := ⟨rfl, of_decide_eq_true rfl⟩
theorem rdlen (rs1 : Reg) : Statement (.rdlen rs1) := ⟨rfl, of_decide_eq_true rfl⟩
theorem rdstat : Statement .rdstat := ⟨rfl, of_decide_eq_true rfl⟩
theorem rdrem : Statement .rdrem := ⟨rfl, of_decide_eq_true rfl⟩
theorem add (rd rs1 rs2 : Reg) : Statement (.add rd rs1 rs2) := ⟨rfl, of_decide_eq_true rfl⟩
theorem sub (rd rs1 rs2 : Reg) : Statement (.sub rd rs1 rs2) := ⟨rfl, of_decide_eq_true rfl⟩
theorem shl (rd rs1 : Reg) (imm : Word) : Statement (.shl rd rs1 imm) := ⟨rfl, of_decide_eq_true rfl⟩
theorem shr (rd rs1 : Reg) (imm : Word) : Statement (.shr rd rs1 imm) := ⟨rfl, of_decide_eq_true rfl⟩
theorem shlx (rd rs1 : Reg) (imm : Word) : Statement (.shlx rd rs1 imm) := ⟨rfl, of_decide_eq_true rfl⟩
theorem cshl (rd rs1 : Reg) (imm : Word) : Statement (.cshl rd rs1 imm) := ⟨rfl, of_decide_eq_true rfl⟩
theorem cshr (rd rs1 : Reg) (imm : Word) : Statement (.cshr rd rs1 imm) := ⟨rfl, of_decide_eq_true rfl⟩
theorem mul (rd rs1 rs2 : Reg) : Statement (.mul rd rs1 rs2) := ⟨rfl, of_decide_eq_true rfl⟩
theorem divw (rd rs1 : Reg) (imm : Word) : Statement (.divw rd rs1 imm) := ⟨rfl, of_decide_eq_true rfl⟩
theorem modw (rd rs1 : Reg) (imm : Word) : Statement (.modw rd rs1 imm) := ⟨rfl, of_decide_eq_true rfl⟩
theorem norm (rd rs1 : Reg) : Statement (.norm rd rs1) := ⟨rfl, of_decide_eq_true rfl⟩

end Sys2Proof.Laws.Encoding
end

