-- ==== Sys2Proof/Laws/Results.lean ====
section
/-! SUPPORT. What the shifter, the multiplier and the divider compute, each as one equation on magnitudes: a proof about a
command cites the equation and never opens the loop. -/

namespace Sys2Proof.Machine

/-- The word at index `i` of a value moved up by `c` words. -/
theorem digit_shift (m c i : Nat) :
    BitVec.ofNat 64 (m * 2^(64*c) / 2^(64*i)) = if c ≤ i then BitVec.ofNat 64 (m / 2^(64*(i-c))) else 0 := by
  split
  · next h =>
    obtain ⟨k, rfl⟩ := Nat.exists_eq_add_of_le h
    congr 1
    rw [Nat.mul_add, Nat.pow_add, Nat.mul_comm m, Nat.mul_div_mul_left _ _ (by positivity)]
    simp
  · next h =>
    obtain ⟨k, rfl⟩ := Nat.exists_eq_add_of_le (show i + 1 ≤ c by omega)
    have e : m * 2^(64*(i+1+k)) = (m * 2^(64*k) * 2^64) * 2^(64*i) := by
      rw [Nat.mul_add, Nat.mul_add, Nat.pow_add, Nat.pow_add]; ring
    rw [e, Nat.mul_div_cancel _ (by positivity)]
    apply BitVec.eq_of_toNat_eq; simp

/-- CSHL moves the magnitude up by whole words, inside the length (42_shift.md R155). -/
theorem chunkLeft_eq (a : List Word) (c : Nat) : chunkLeft a c = wordsN a.length (mag a * 2^(64*c)) := by
  apply collect_eq_wordsN
  intro i hi
  rw [digit_shift, lw_eq_digit]

/-- CSHR moves the magnitude down by whole words (42_shift.md R156). -/
theorem chunkRight_eq (a : List Word) (c : Nat) : chunkRight a c = wordsN a.length (mag a / 2^(64*c)) := by
  apply collect_eq_wordsN
  intro i hi
  rw [lw_eq_digit, Nat.div_div_eq_div_mul, ← Nat.pow_add]; congr 3; omega

/-- A word and its lower neighbour, combined, are one word of the value moved up by fewer than 64 bits (42_shift.md R151). -/
theorem combine_left (m k i : Nat) (hk : 0 < k) (hk' : k < 64) :
    (BitVec.ofNat 64 (m / 2^(64*(i+1))) <<< k ||| BitVec.ofNat 64 (m / 2^(64*i)) >>> (64-k)) =
      BitVec.ofNat 64 (m * 2^k / 2^(64*(i+1))) := by
  apply BitVec.eq_of_getLsbD_eq
  intro j hj
  simp only [BitVec.getLsbD_or, BitVec.getLsbD_shiftLeft, BitVec.getLsbD_ushiftRight, BitVec.getLsbD_ofNat, hj,
    decide_true, Bool.true_and, Nat.testBit_div_two_pow, Nat.testBit_mul_two_pow]
  by_cases h : j < k
  · have h1 : 64 - k + j < 64 := by omega
    have h2 : k ≤ j + 64*(i+1) := by omega
    simp [h, h1, h2]
    congr 1; omega
  · have h1 : ¬ (64 - k + j < 64) := by omega
    have h2 : k ≤ j + 64*(i+1) := by omega
    have h3 : j - k < 64 := by omega
    simp [h, h1, h2, h3]
    congr 1; omega

/-- The lowest word of a value moved up by fewer than 64 bits has no lower neighbour. -/
theorem combine_left0 (m k : Nat) : (BitVec.ofNat 64 m <<< k) = BitVec.ofNat 64 (m * 2^k) := by
  apply BitVec.eq_of_toNat_eq; simp [Nat.shiftLeft_eq]

/-- A word and its upper neighbour, combined, are one word of the value moved down by fewer than 64 bits (42_shift.md R152). -/
theorem combine_right (m k : Nat) (hk : 0 < k) (hk' : k < 64) :
    (BitVec.ofNat 64 m >>> k ||| BitVec.ofNat 64 (m / 2^64) <<< (64-k)) = BitVec.ofNat 64 (m / 2^k) := by
  apply BitVec.eq_of_getLsbD_eq
  intro j hj
  simp only [BitVec.getLsbD_or, BitVec.getLsbD_shiftLeft, BitVec.getLsbD_ushiftRight, BitVec.getLsbD_ofNat, hj,
    decide_true, Bool.true_and, Nat.testBit_div_two_pow]
  by_cases h : j < 64 - k
  · have h1 : k + j < 64 := by omega
    simp [h, h1]
    congr 1; omega
  · have h1 : ¬ (k + j < 64) := by omega
    have h3 : j - (64 - k) < 64 := by omega
    simp [h, h1, h3]
    congr 1; omega

/-- The loop of SHL is a multiplication by a power of two, inside the length (42_shift.md R151). -/
theorem shiftLeftWords_eq (a : List Word) (imm : Word) :
    shiftLeftWords a (wordPart imm) (bitPart imm) = wordsN a.length (mag a * 2^imm.toNat) := by
  have hq : imm.toNat = bitPart imm + 64 * wordPart imm := by simp [bitPart, wordPart]; omega
  have hk : bitPart imm < 64 := Nat.mod_lt _ (by omega)
  generalize bitPart imm = k at *
  generalize wordPart imm = q at *
  apply collect_eq_wordsN
  intro i hi
  rw [hq, Nat.pow_add, ← Nat.mul_assoc, digit_shift]
  dsimp only
  simp only [lw_eq_digit]
  by_cases h0 : k = 0
  · simp [h0]
  · rw [if_neg h0]
    by_cases h : q ≤ i
    · obtain ⟨r, rfl⟩ := Nat.exists_eq_add_of_le h
      rw [if_pos h, if_pos h]
      cases r with
      | zero =>
        rw [if_neg (by omega)]; simp [combine_left0]
      | succ r =>
        rw [if_pos (by omega), show q + (r+1) - q = r + 1 by omega, show r + 1 - 1 = r by omega]
        exact combine_left _ _ _ (by omega) hk
    · rw [if_neg h, if_neg h, if_neg (by omega)]; simp

/-- The loop of SHR is a division by a power of two (42_shift.md R152). -/
theorem shiftRightWords_eq (a : List Word) (imm : Word) :
    shiftRightWords a (wordPart imm) (bitPart imm) = wordsN a.length (mag a / 2^imm.toNat) := by
  have hq : imm.toNat = bitPart imm + 64 * wordPart imm := by simp [bitPart, wordPart]; omega
  have hk : bitPart imm < 64 := Nat.mod_lt _ (by omega)
  generalize bitPart imm = k at *
  generalize wordPart imm = q at *
  apply collect_eq_wordsN
  intro i hi
  dsimp only
  simp only [lw_eq_digit]
  have e : mag a / 2 ^ imm.toNat / 2^(64*i) = mag a / 2^(64*(i+q)) / 2^k := by
    rw [Nat.div_div_eq_div_mul, Nat.div_div_eq_div_mul, ← Nat.pow_add, ← Nat.pow_add, hq]; congr 2; omega
  have e2 : mag a / 2^(64*(i+q+1)) = mag a / 2^(64*(i+q)) / 2^64 := by
    rw [Nat.div_div_eq_div_mul, ← Nat.pow_add]; congr 2
  rw [e, e2]
  by_cases h0 : k = 0
  · simp [h0]
  · rw [if_neg h0]; exact combine_right _ _ (by omega) hk

/-- The schoolbook multiplication is the normalized product (43_multiply.md R180). -/
theorem mulWords_eq (a b : List Word) : mulWords a b = trim (wordsN (a.length + b.length) (mag a * mag b)) := by
  unfold mulWords
  rw [mulAcc_spec, mag_mod_of_le (le_refl _)]

/-- The long division is the quotient at the length of the dividend, and the remainder (44_divide.md R190). -/
theorem divWalk_eq (a : List Word) (d : Word) (hd : d ≠ 0) :
    (divWalk a d).1 = wordsN a.length (mag a / d.toNat) ∧ (divWalk a d).2 = BitVec.ofNat 64 (mag a % d.toNat) := by
  have h0 : 0 < d.toNat := Nat.pos_of_ne_zero fun e => hd (BitVec.eq_of_toNat_eq (by simpa using e))
  obtain ⟨h1, h2⟩ := divWalkFrom_spec d hd a 0 (by simpa using h0)
  have hz : (0 : Word).toNat = 0 := rfl
  rw [hz, Nat.zero_mul, Nat.zero_add] at h1
  rw [← h1, Nat.add_comm, Nat.add_mul_div_right _ _ h0, Nat.add_mul_mod_self_right, Nat.div_eq_of_lt h2, Nat.mod_eq_of_lt h2,
    Nat.zero_add]
  exact ⟨eq_wordsN (length_divWalk a d) rfl, BitVec.eq_of_toNat_eq (by simp [divWalk])⟩

end Sys2Proof.Machine
end

