-- ==== Sys2Proof/Tests/Slice0.lean ====
section
/-! SUPPORT. The model's own tests. Expected results are the spec's: rule examples and the vectors of 95_test_vectors.md, or
words written out bit by bit from 30_encoding.md R71 and R75. After them stands a witness for each statement of
Certificates/Slice0/Obligations.lean that has hypotheses, one for each of its clauses. -/

namespace Sys2Proof.Tests

open Sys2Proof Sys2Proof.Machine

/-! ### Helpers -/

/-- A state in which no register is valid, with the given MAXW. Its sequences are numerals, so that the kernel can compute
with it. -/
def blank (maxw : BitVec 32) : State where
  v := Vector.ofFn fun _ => ⟨[0], false⟩
  rem := 0
  status := ⟨false, .ok, .ok, maxw⟩
  response := none
  inputs := []

/-- MAXW = 8 and one value, in V1. -/
def one (a : List Word) : State := (blank 8).writeReg 1 a

/-- MAXW = 8 and two values, in V1 and V2. -/
def two (a b : List Word) : State := (one a).writeReg 2 b

/-- MAXW = 2 and two values, in V1 and V2. -/
def tight (a b : List Word) : State := ((blank 2).writeReg 1 a).writeReg 2 b

/-- 2^64 - 1. -/
def M : Word := 0xFFFFFFFFFFFFFFFF

/-- 2^63. -/
def H : Word := 0x8000000000000000

/-- A field of the state after one step. -/
def after {α : Type} (f : State → α) (r : Host.Outcome State Fault Refusal) : Option α :=
  match r with
  | .next t => some (f t)
  | .fault _ => none
  | .refused _ => none

/-- The response code and V3 as a command on V1, V2 and V3 leaves them. -/
def result (i : Instr) (s : State) : Option (Resp × VReg) := after (fun t => (t.status.lastResp, t.v[(3 : Reg)])) (exec i s)

/-- The response of a command. -/
def answer (i : Instr) (s : State) : Option (Option Response) := after State.response (exec i s)

/-! ### Well-formedness: a field record each check refuses (30_encoding.md R72, R73, R76) -/

theorem test_wellFormed_ok : Fields.WellFormed ⟨0x10, 1, 2, 3, 0⟩ .dss := by decide
theorem test_wellFormed_rsv : ¬ Fields.WellFormed ⟨0x10, 1, 2, 3, 1⟩ .dss := by decide
theorem test_wellFormed_rd : ¬ Fields.WellFormed ⟨0x00, 1, 0, 0, 0⟩ .n := by decide
theorem test_wellFormed_rs1 : ¬ Fields.WellFormed ⟨0x01, 0, 1, 0, 0⟩ .di := by decide
theorem test_wellFormed_rs2 : ¬ Fields.WellFormed ⟨0x03, 0, 0, 1, 0⟩ .ds := by decide

/-! ### Decoding: one word for each command, OPC RD RS1 RS2 RSV written out in bits -/

theorem test_decode_nop : decode 0b00000000000000000000000000000000 9 = .ok .nop := by decide
theorem test_decode_ldi : decode 0b00000001010100000000000000000000 9 = .ok (.ldi 5 9) := by decide
theorem test_decode_appw : decode 0b00000010111100000000000000000000 9 = .ok (.appw 15 9) := by decide
theorem test_decode_mov : decode 0b00000011000111100000000000000000 9 = .ok (.mov 1 14) := by decide
theorem test_decode_rdw : decode 0b00001000000001110000000000000000 9 = .ok (.rdw 7 9) := by decide
theorem test_decode_rdlen : decode 0b00001001000010000000000000000000 9 = .ok (.rdlen 8) := by decide
theorem test_decode_rdstat : decode 0b00001010000000000000000000000000 9 = .ok .rdstat := by decide
theorem test_decode_rdrem : decode 0b00001011000000000000000000000000 9 = .ok .rdrem := by decide
theorem test_decode_add : decode 0b00010000000100100011000000000000 9 = .ok (.add 1 2 3) := by decide
theorem test_decode_sub : decode 0b00010001110000101001000000000000 9 = .ok (.sub 12 2 9) := by decide
theorem test_decode_shl : decode 0b00100000010001100000000000000000 9 = .ok (.shl 4 6 9) := by decide
theorem test_decode_shr : decode 0b00100001101000010000000000000000 9 = .ok (.shr 10 1 9) := by decide
theorem test_decode_shlx : decode 0b00100010010000010000000000000000 9 = .ok (.shlx 4 1 9) := by decide
theorem test_decode_cshl : decode 0b00100011000011110000000000000000 9 = .ok (.cshl 0 15 9) := by decide
theorem test_decode_cshr : decode 0b00100100001000010000000000000000 9 = .ok (.cshr 2 1 9) := by decide
theorem test_decode_mul : decode 0b00110000000000100011000000000000 9 = .ok (.mul 0 2 3) := by decide
theorem test_decode_divw : decode 0b01000000001100100000000000000000 9 = .ok (.divw 3 2 9) := by decide
theorem test_decode_modw : decode 0b01000001000100000000000000000000 9 = .ok (.modw 1 0 9) := by decide
theorem test_decode_norm : decode 0b01010000001100100000000000000000 9 = .ok (.norm 3 2) := by decide

/-- 95_test_vectors.md section 2.8: what is illegal, by the name of the reason. -/
theorem test_decode_illegal :
    decode 0x10123001 0 = .error (.reservedField 1) ∧ decode 0xFF000000 0 = .error (.reservedOpcode 0xFF) ∧
    decode 0x00100000 0 = .error (.unusedRd 1) ∧ decode 0x01010000 0 = .error (.unusedRs1 1) ∧
    decode 0x03001000 0 = .error (.unusedRs2 1) ∧ decode 0x04000000 0 = .error (.reservedOpcode 0x04) := by decide

/-- 30_encoding.md R77: the first and the last opcode of every reserved range. -/
theorem test_decode_reserved :
    ∀ o ∈ ([0x04, 0x07, 0x0C, 0x0F, 0x12, 0x1F, 0x25, 0x2F, 0x31, 0x3F, 0x42, 0x4F, 0x51, 0xFF] : List (BitVec 8)),
      decode (o ++ (0 : BitVec 24)) 0 = .error (.reservedOpcode o) := by decide

/-- The encoder against the words of 95_test_vectors.md section 3. -/
theorem test_encode :
    encode (.sub 2 0 1) = ⟨0x11201000, 0⟩ ∧ encode (.divw 1 0 0x0DE0B6B3A7640000) = ⟨0x40100000, 0x0DE0B6B3A7640000⟩ ∧
    encode (.shlx 4 1 127) = ⟨0x22410000, 0x7F⟩ ∧ encode (.norm 3 2) = ⟨0x50320000, 0⟩ := by decide

/-- The table's numbering: the command word below, the immediate, of which the table gives no bits, 0. -/
theorem test_decodeTableWord :
    decodeTableWord 32 0x20440000 = some (.shl 4 4 0) ∧ decodeTableWord 32 0x04000000 = none ∧
    decodeTableWord 96 0x4120440000 = some (.shl 4 4 0x41) := by decide

/-! ### Commands: two vectors each (95_test_vectors.md section 2, rules' examples) -/

theorem test_nop : answer .nop (blank 8) = some (some ⟨.ok, 0⟩) := by decide
theorem test_nop_lastResp :
    after (fun t => t.status) (exec .nop ((blank 8).afterFail .uninit)) = some ⟨true, .failed .uninit, .ok, 8⟩ := by decide
theorem test_ldi_max : result (.ldi 3 M) (blank 8) = some (.ok, ⟨[M], true⟩) := by decide
theorem test_ldi_zero : result (.ldi 3 0) (blank 8) = some (.ok, ⟨[0], true⟩) := by decide
theorem test_appw : result (.appw 3 7) ((blank 8).writeReg 3 [5]) = some (.ok, ⟨[5, 7], true⟩) := by decide
theorem test_appw_full :
    result (.appw 3 7) ((blank 8).writeReg 3 [1, 1, 1, 1, 1, 1, 1, 1]) = some (.failed .capacity, ⟨[1, 1, 1, 1, 1, 1, 1, 1], true⟩) := by decide
theorem test_mov : result (.mov 3 1) (one [0, 9]) = some (.ok, ⟨[0, 9], true⟩) := by decide
theorem test_mov_invalid : result (.mov 3 1) (blank 8) = some (.failed .uninit, ⟨[0], false⟩) := by decide
theorem test_rdw : answer (.rdw 1 1) (one [1, 0]) = some (some ⟨.ok, 1⟩) := by decide
theorem test_rdw_beyond : answer (.rdw 1 M) (one [1, 0]) = some (some ⟨.ok, 0⟩) := by decide
theorem test_rdlen : answer (.rdlen 1) (one [0, 0, 5]) = some (some ⟨.ok, 3⟩) := by decide
theorem test_rdlen_invalid : answer (.rdlen 1) (blank 8) = some (some ⟨.failed .uninit, 0⟩) := by decide
theorem test_rdstat : answer .rdstat (blank 8) = some (some ⟨.ok, 0x0000000800000000⟩) := by decide
theorem test_rdstat_fields : answer .rdstat { two [0] [0] with status := ⟨true, .failed .subUnderflow, .failed .divZero, 8⟩ } =
      some (some ⟨.ok, 0x0000000800060431⟩) := by decide
theorem test_rdrem : answer .rdrem (blank 8) = some (some ⟨.ok, 0⟩) := by decide
theorem test_rdrem_value : answer .rdrem { blank 8 with rem := 0x3E8 } = some (some ⟨.ok, 0x3E8⟩) := by decide
theorem test_add_carry : result (.add 3 1 2) (two [1] [M, M]) = some (.ok, ⟨[1, 0, 0], true⟩) := by decide
theorem test_add_capacity : result (.add 3 1 2) (tight [M, M] [1]) = some (.failed .capacity, ⟨[0], false⟩) := by decide
theorem test_sub_borrow : result (.sub 3 1 2) (two [1, 0, 0] [1]) = some (.ok, ⟨[0, M, M], true⟩) := by decide
theorem test_sub_underflow : result (.sub 3 1 2) (two [1, 0] [1, 1]) = some (.failed .subUnderflow, ⟨[0], false⟩) := by decide
theorem test_shl : result (.shl 3 1 130) (one [0, 0, 1]) = some (.ok, ⟨[4, 0, 0], true⟩) := by decide
theorem test_shl_huge : result (.shl 3 1 M) (one [1, 2]) = some (.ok, ⟨[0, 0], true⟩) := by decide
theorem test_shr :
    result (.shr 3 1 4) (one [0x0123456789ABCDEF, 0xFEDCBA9876543210]) = some (.ok, ⟨[0x00123456789ABCDE, 0xFFEDCBA987654321], true⟩) := by decide
theorem test_shr_wordwise : result (.shr 3 1 64) (one [1, 0]) = some (.ok, ⟨[0, 1], true⟩) := by decide
theorem test_shlx_grows : result (.shlx 3 1 511) (one [1]) = some (.ok, ⟨[H, 0, 0, 0, 0, 0, 0, 0], true⟩) := by decide
theorem test_shlx_capacity : result (.shlx 3 1 512) (one [1]) = some (.failed .capacity, ⟨[0], false⟩) := by decide
theorem test_cshl : result (.cshl 3 1 1) (one [1, 2, 3]) = some (.ok, ⟨[2, 3, 0], true⟩) := by decide
theorem test_cshl_huge : result (.cshl 3 1 M) (one [1, 2]) = some (.ok, ⟨[0, 0], true⟩) := by decide
theorem test_cshr : result (.cshr 3 1 2) (one [1, 2, 3]) = some (.ok, ⟨[0, 0, 1], true⟩) := by decide
theorem test_cshr_beyond : result (.cshr 3 1 5) (one [1, 2]) = some (.ok, ⟨[0, 0], true⟩) := by decide
theorem test_mul : result (.mul 3 1 2) (two [M, M] [M, M]) = some (.ok, ⟨[M, 0xFFFFFFFFFFFFFFFE, 0, 1], true⟩) := by decide
theorem test_mul_normalized : result (.mul 3 1 2) (tight [0, 0, 1] [1]) = some (.ok, ⟨[1], true⟩) := by decide
theorem test_divw :
    result (.divw 3 1 0x0DE0B6B3A7640000) (one [0x36, 0x35C9ADC5DEA00000]) = some (.ok, ⟨[0, 1000], true⟩) := by decide
theorem test_divw_zero : result (.divw 3 1 0) (one [5]) = some (.failed .divZero, ⟨[0], false⟩) := by decide
theorem test_modw : result (.modw 3 1 10) (one [M, M, M]) = some (.ok, ⟨[5], true⟩) := by decide
theorem test_modw_rem : after State.rem (exec (.modw 3 1 M) (one [1, 0])) = some 1 := by decide
theorem test_norm : result (.norm 3 1) (one [0, 0, 5]) = some (.ok, ⟨[5], true⟩) := by decide
theorem test_norm_zero : result (.norm 3 1) (one [0, 0, 0]) = some (.ok, ⟨[0], true⟩) := by decide

/-! ### The step and the command cycle -/

/-- An issued command runs in the next step (95_test_vectors.md section 3, P3 line 7). -/
theorem test_step_runs :
    after (fun t => t.v[(3 : Reg)]) (step ((one [100]).withFetchWord 96 0x740310000)) = some ⟨[14], true⟩ := by decide

/-- The first row of 95_test_vectors.md section 2.8: ILLEGAL wins over UNINIT, and STATUS after it. -/
theorem test_step_illegal :
    after State.statusWord (step ((blank 8).withFetchWord 32 0x10123001)) = some 0x0000000800000111 := by decide

/-- DIVW by 0 of a register that is not valid: UNINIT wins over DIV_ZERO (section 2.8). -/
theorem test_step_uninit :
    after State.statusWord (step ((blank 8).withFetchWord 32 0x40100000)) = some 0x0000000800000221 := by decide

/-- FIRST_ERR keeps the first failure, LAST_RESP takes the last (60_exceptions.md R230). -/
theorem test_sticky :
    after State.status (exec (.divw 3 1 0) ((one [5]).afterFail .subUnderflow)) =
      some ⟨true, .failed .subUnderflow, .failed .divZero, 8⟩ := by decide

/-- Reset abandons the command in progress and leaves the valid bits 0 and REM 0 (70_reset_and_hazards.md R260). -/
theorem test_reset :
    after (fun t => (t.rem, t.validBits, t.response, t.inputs))
      (step { two [1] [2] with rem := 5, inputs := [.reset (some ⟨0x10312000, 0⟩)] }) = some (0, 0, none, []) := by decide

/-- A command in place: `ADD v1, v1, v1` (95_test_vectors.md section 2.9). -/
theorem test_alias : after (fun t => t.v[(1 : Reg)]) (exec (.add 1 1 1) (one [3])) = some ⟨[6], true⟩ := by decide

/-- A failed command leaves REM as it was (section 2.6). -/
theorem test_failed_rem :
    after State.rem (exec (.modw 3 1 0) { one [5] with rem := 9 }) = some 9 := by decide

/-! ### Value functions (10_state.md R28 to R32) -/

theorem test_trim : trim [0, 0, 5] = [5] ∧ trim [0, 0, 0] = [0] ∧ trim [7, 0] = [7, 0] := by decide
theorem test_lw : lw [1, 0] 0 = 0 ∧ lw [1, 0] 1 = 1 ∧ lw [1, 0] 2 = 0 := by decide
theorem test_bitscans : bitscanForward [0, 1] = 127 ∧ bitscanReverse [1, 0] = 64 ∧ bitscanForward [0] = 64 := by decide

/-! ### Assembler and bus (30_encoding.md R80, R81; 20_memory.md R52) -/

theorem test_assemble_pseudo :
    assemble "LDW v1, [1, 0x2, 3] ; three words".toList = some [.ldi 1 1, .appw 1 2, .appw 1 3] ∧
    assemble "SUBN v4, v5, v15".toList = some [.sub 4 5 15, .norm 4 4] ∧
    assemble "CLR v0".toList = some [.ldi 0 0] := by decide
theorem test_assemble_refuses :
    assemble "ADD v1, v2".toList = none ∧ assemble "MOV v1, v16".toList = none ∧
    assemble "LDI v0, 18446744073709551616".toList = none ∧ assemble "FOO v1".toList = none := by decide
theorem test_bus :
    decodeBus .big [0x10, 0x12, 0x30, 0x00] [0, 0, 0, 0, 0, 0, 0, 0] = .ok (.add 1 2 3) ∧
    decodeBus .little [0x00, 0x30, 0x12, 0x10] [0, 0, 0, 0, 0, 0, 0, 0] = .ok (.add 1 2 3) ∧
    decodeBus .little [0x00, 0x30, 0x12] [0, 0, 0, 0, 0, 0, 0, 0] = .error .badLength := by decide

/-! ### Witnesses: each hypothesis of a statement is met by something -/

/-- The invariant holds in the tests' states, so that statements that assume it are not empty. -/
theorem two_wf (a b : List Word) (ha : a ≠ []) (hb : b ≠ []) (ha' : a.length ≤ 8) (hb' : b.length ≤ 8) : (two a b).Wf where
  maxw := by show 2 ≤ 8; decide
  nonempty := by
    intro r
    fin_cases r <;> first | exact ha | exact hb | exact List.cons_ne_nil _ _
  fits := by
    intro r
    show ((two a b).v[r]).words.length ≤ 8
    fin_cases r <;> first | exact ha' | exact hb' | exact (by decide : (1 : Nat) ≤ 8)
  firstErr := ⟨fun _ => rfl, fun _ => rfl⟩
  lastResp := fun h => absurd rfl h
  response := fun _ h => by cases h

theorem witness_EncodeDecodeAgree : decode 0x10123000 7 = .ok (.add 1 2 3) ∧ decode 0x01500000 7 = .ok (.ldi 5 7) := by decide
/-- One word under each row, with the highest indices the row allows. -/
theorem witness_DecodeReadsEachRow :
    (0x00000000 : CmdWord) &&& 0xFFFFFFFF = 0x00000000 ∧
    (0x01F00000 : CmdWord) &&& 0xFF0FFFFF = 0x01000000 ∧
    (0x02F00000 : CmdWord) &&& 0xFF0FFFFF = 0x02000000 ∧
    (0x03F10000 : CmdWord) &&& 0xFF00FFFF = 0x03000000 ∧
    (0x080F0000 : CmdWord) &&& 0xFFF0FFFF = 0x08000000 ∧
    (0x090F0000 : CmdWord) &&& 0xFFF0FFFF = 0x09000000 ∧
    (0x0A000000 : CmdWord) &&& 0xFFFFFFFF = 0x0A000000 ∧
    (0x0B000000 : CmdWord) &&& 0xFFFFFFFF = 0x0B000000 ∧
    (0x10FEF000 : CmdWord) &&& 0xFF000FFF = 0x10000000 ∧
    (0x11FEF000 : CmdWord) &&& 0xFF000FFF = 0x11000000 ∧
    (0x20FE0000 : CmdWord) &&& 0xFF00FFFF = 0x20000000 ∧
    (0x21FE0000 : CmdWord) &&& 0xFF00FFFF = 0x21000000 ∧
    (0x22FE0000 : CmdWord) &&& 0xFF00FFFF = 0x22000000 ∧
    (0x23FE0000 : CmdWord) &&& 0xFF00FFFF = 0x23000000 ∧
    (0x24FE0000 : CmdWord) &&& 0xFF00FFFF = 0x24000000 ∧
    (0x30FEF000 : CmdWord) &&& 0xFF000FFF = 0x30000000 ∧
    (0x40FE0000 : CmdWord) &&& 0xFF00FFFF = 0x40000000 ∧
    (0x41FE0000 : CmdWord) &&& 0xFF00FFFF = 0x41000000 ∧
    (0x50FE0000 : CmdWord) &&& 0xFF00FFFF = 0x50000000 := by decide
theorem witness_LegalExactlyWhenOneRowMatches :
    (⟨0x10, 0x10000000, 0xFF000FFF⟩ : Pattern) ∈ opcodeMap ∧ (0x10123000 : CmdWord) &&& 0xFF000FFF = 0x10000000 ∧
    ((blank 8).issue ⟨0x10123001, 0⟩).inputs = .command ⟨0x10123001, 0⟩ :: [] ∧
    ¬ ∃ p ∈ opcodeMap, (0x10123001 : CmdWord) &&& p.mask = p.value := by decide
theorem witness_UnusedImmediateIgnored :
    decode 0x10123000 M = .ok (.add 1 2 3) ∧ (Instr.add 1 2 3).form.usesImm = false := by decide
theorem witness_ReservedOpcodesAreIllegal :
    0x51 ≤ ((0x51000000 : CmdWord).extractLsb' 24 8).toNat ∧ ((0x04000000 : CmdWord).extractLsb' 24 8).toNat ≤ 0x07 ∧
    ((blank 8).issue ⟨0x51000000, 0⟩).inputs = .command ⟨0x51000000, 0⟩ :: [] := by decide
theorem witness_StepRunsDecodedCommand :
    ((blank 8).issue ⟨0x01500000, 7⟩).inputs = .command ⟨0x01500000, 7⟩ :: [] ∧ decode 0x01500000 7 = .ok (.ldi 5 7) := by decide
theorem witness_IllegalWordFailsFirst :
    ((blank 8).issue ⟨0x00100000, 7⟩).inputs = .command ⟨0x00100000, 7⟩ :: [] ∧
    decode 0x00100000 7 = .error (.unusedRd 1) := by decide
theorem witness_IdleBlockHoldsState :
    (one [5]).inputs = [] := by decide
theorem witness_ResetLeavesTheStatedValues :
    (Instr.appw 0 1).sources ≠ [] ∧ (Instr.mul 0 1 2).sources ≠ [] := by decide
theorem witness_ResetAloneClearsStickyState :
    { blank 8 with inputs := [.reset none] }.inputs = .reset none :: [] ∧
    (∃ t, step (((one [5]).afterFail .uninit).issue ⟨0x04000000, 0⟩) = .next t) ∧
    (∀ a rest, (((one [5]).afterFail .uninit).issue ⟨0x04000000, 0⟩).inputs ≠ .reset a :: rest) ∧
    ((one [5]).afterFail .uninit).status.fault = true ∧ (one [5]).v[(1 : Reg)].valid = true :=
      ⟨rfl, ⟨_, rfl⟩, by simp [State.issue], rfl, rfl⟩
theorem witness_StepKeepsInvariant :
    (two [5] [7]).Wf ∧ ∃ t, step (two [5] [7]) = .next t := ⟨two_wf _ _ (by decide) (by decide) (by decide) (by decide), _, rfl⟩
theorem witness_CommandCycleUpdatesStatus :
    (∃ t, exec (.add 3 1 2) (two [5] [7]) = .next t ∧ t.status.lastResp = .ok) ∧
    ∃ t, exec (.sub 3 1 2) (two [5] [7]) = .next t ∧ t.status.lastResp ≠ .ok := ⟨⟨_, rfl, rfl⟩, _, rfl, by decide⟩
theorem witness_CommandFrame :
    (∃ t, exec (.add 3 1 2) (two [5] [7]) = .next t) ∧ (Instr.add 3 1 2).dest ≠ some 4 ∧
    (Instr.add 3 1 2).divides = false := ⟨⟨_, rfl⟩, by decide, rfl⟩
theorem witness_OutIsZeroUnlessRead :
    (∃ t, exec (.add 3 1 2) (two [5] [7]) = .next t) ∧ (Instr.add 3 1 2).answers = false ∧
    ∃ t, exec (.rdw 1 0) (blank 8) = .next t ∧ t.status.lastResp ≠ .ok := ⟨⟨_, rfl⟩, rfl, _, rfl, by decide⟩
theorem witness_InvalidContentsNeverSeen :
    SameReadable (two [5] [7]) { two [5] [7] with v := (two [5] [7]).v.set 9 ⟨[1, 2], false⟩ } ∧
    (∃ s', step (two [5] [7]) = .next s') ∧
    ∃ t', step { two [5] [7] with v := (two [5] [7]).v.set 9 ⟨[1, 2], false⟩ } = .next t' := 
  ⟨⟨rfl, rfl, rfl, rfl, by decide, by decide⟩, ⟨_, rfl⟩, _, rfl⟩
theorem witness_MagnitudeIsWeightedSum :
    (2 ^ 128 - 1 : Nat) < 2 ^ (64 * 2) ∧ (1 : Nat) < 2 := by decide
theorem witness_TrimNormalizes :
    ([0, 0, 5] : List Word) ≠ [] ∧ normalized [7, 0] = true ∧ normalized [0] = true := by decide
theorem witness_BitScansCountZeros :
    (0 : Nat) < 8 ∧ (64 : Nat) ≤ 64 * ([1, 0] : List Word).length ∧ mag [1, 0] % 2 ^ 64 = 0 ∧ mag [0, 0] = 0 := by decide
theorem witness_GrowIsLeastLength :
    bitlen (mag [0, 0]) = 0 ∧ 0 < bitlen (mag [1]) ∧ ([1] : List Word).length ≤ 2 ∧
    mag [1] * 2 ^ 64 < 2 ^ (64 * 2) := by decide
theorem witness_AppwAppendsWord :
    (blank 8).v[(3 : Reg)].valid = false ∧
    ((one [1, 1, 1, 1, 1, 1, 1]).Holds 1 [1, 1, 1, 1, 1, 1, 1] ∧ 7 + 1 ≤ (one [1, 1, 1, 1, 1, 1, 1]).capacity) ∧
    ((one [1, 1, 1, 1, 1, 1, 1, 1]).Holds 1 [1, 1, 1, 1, 1, 1, 1, 1] ∧
      (one [1, 1, 1, 1, 1, 1, 1, 1]).capacity < 8 + 1) := by decide
/-- For every statement about a command with the one source V1: MovCopies, ShlShiftsWithinLength, ShrShiftsWithinLength,
CshlShiftsWholeWords, CshrShiftsWholeWords, NormTrims. -/
theorem witness_one_source :
    (blank 8).v[(1 : Reg)].valid = false ∧ (one [1, 0]).Holds 1 [1, 0] := by decide
theorem witness_RdwReadsWord :
    (blank 8).v[(1 : Reg)].valid = false ∧ (one [1, 0]).Holds 1 [1, 0] ∧
    ([1, 0] : List Word).length ≤ (2 : Word).toNat := by decide
theorem witness_RdlenReadsLength :
    (blank 8).v[(1 : Reg)].valid = false ∧ (two [1, 0] [7]).Holds 1 [1, 0] ∧ (two [1, 0] [7]).Wf :=
      ⟨by decide, by decide, two_wf _ _ (by decide) (by decide) (by decide) (by decide)⟩
theorem witness_AddGivesExactSum :
    ((one [5]).v[(2 : Reg)].valid = false) ∧
    ((two [M] [0]).Holds 1 [M] ∧ (two [M] [0]).Holds 2 [0] ∧ mag [M] + mag [0] < 2 ^ (64 * 1)) ∧
    ((two [M] [1]).Holds 1 [M] ∧ (two [M] [1]).Holds 2 [1] ∧ 2 ^ (64 * 1) ≤ mag [M] + mag [1] ∧ 1 + 1 ≤ (two [M] [1]).capacity) ∧
    ((tight [M, M] [1]).Holds 1 [M, M] ∧ (tight [M, M] [1]).Holds 2 [1] ∧ 2 ^ (64 * 2) ≤ mag [M, M] + mag [1] ∧
      (tight [M, M] [1]).capacity < 2 + 1) := by decide
theorem witness_AddResultLaws :
    (two [M] [1]).Holds 1 [M] ∧ (two [M] [1]).Holds 2 [1] ∧
    (∃ t, exec (.add 3 1 2) (two [M] [1]) = .next t ∧ t.status.lastResp = .ok) ∧
    (∃ t, exec (.add 3 1 2) (two [0, 5] [M]) = .next t ∧ t.status.lastResp = .ok) ∧
    lw [0, 5] (2 - 1) = 0 ∧ lw [M] (2 - 1) = 0 ∧ normalized [M] = true :=
      ⟨by decide, by decide, ⟨_, rfl, by decide⟩, ⟨_, rfl, by decide⟩, by decide, by decide, by decide⟩
theorem witness_SubGivesExactDifference :
    ((one [5]).v[(2 : Reg)].valid = false) ∧
    ((two [4] [9]).Holds 1 [4] ∧ (two [4] [9]).Holds 2 [9] ∧ mag [4] < mag [9]) ∧
    ((two [5] [0, 5]).Holds 1 [5] ∧ (two [5] [0, 5]).Holds 2 [0, 5] ∧ mag [0, 5] ≤ mag [5]) := by decide
theorem witness_SubResultLaws :
    mag [M] ≤ mag [1, 0] ∧ (two [M] [1]).Wf ∧ (two [M] [1]).Holds 1 [M] ∧ (two [M] [1]).Holds 2 [1] ∧ (3 : Reg) ≠ 2 ∧
    2 ^ (64 * 1) ≤ mag [M] + mag [1] ∧ 1 + 1 ≤ (two [M] [1]).capacity ∧
    (two [5] [7]).Holds 1 [5] ∧ mag [5] + mag [7] < 2 ^ (64 * 1) := 
  ⟨by decide, two_wf _ _ (by decide) (by decide) (by decide) (by decide), by decide, by decide, by decide, by decide,
    by decide, by decide, by decide⟩
theorem witness_ShlxLosesNoBits :
    (blank 8).v[(1 : Reg)].valid = false ∧ (one [1]).Holds 1 [1] ∧ (one [1]).capacity < grow [1] (512 : Word).toNat ∧
    grow [1] (511 : Word).toNat ≤ (one [1]).capacity := by decide
theorem witness_ShiftsAgree :
    64 * (2 : Word).toNat < 2 ^ 64 ∧ (one [0, 1]).Holds 1 [0, 1] ∧ ([0, 1] : List Word).length ≤ (one [0, 1]).capacity ∧
    grow [0, 1] (127 : Word).toNat = ([0, 1] : List Word).length := by decide
theorem witness_MulGivesNormalizedProduct :
    ((one [5]).v[(2 : Reg)].valid = false) ∧
    ((tight [M, M] [M]).Holds 1 [M, M] ∧ (tight [M, M] [M]).Holds 2 [M] ∧
      (tight [M, M] [M]).capacity < (trim (wordsN (2 + 1) (mag [M, M] * mag [M]))).length) ∧
    ((tight [M] [M]).Holds 1 [M] ∧ (tight [M] [M]).Holds 2 [M] ∧
      (trim (wordsN (1 + 1) (mag [M] * mag [M]))).length ≤ (tight [M] [M]).capacity) := by decide
theorem witness_MulResultLaws :
    (two [M] [0, 7]).Wf ∧ (two [M] [0, 7]).Holds 1 [M] ∧ (two [M] [0, 7]).Holds 2 [0, 7] ∧
    (∃ t, exec (.mul 3 1 2) (two [M] [0, 7]) = .next t ∧ t.status.lastResp = .ok) ∧
    0 < mag [M] ∧ 0 < mag [0, 7] ∧ mag [7] = mag [0, 7] ∧ 0 < (10 : Word).toNat := 
  ⟨two_wf _ _ (by decide) (by decide) (by decide) (by decide), by decide, by decide, ⟨_, rfl, by decide⟩, by decide, by decide,
    by decide, by decide⟩
/-- For DivwGivesQuotient, DivwResultLaws, ModwGivesRemainder and ModwResultLaws, its last clause among them. -/
theorem witness_DivwAndModw :
    (blank 8).v[(1 : Reg)].valid = false ∧ (one [1, 0]).Holds 1 [1, 0] ∧ (0 : Word) = 0 ∧ (M : Word) ≠ 0 ∧
    M = 0xFFFFFFFFFFFFFFFF := by decide
theorem witness_LeadingZerosDoNotCount :
    ([0, 5] : List Word) ≠ [] ∧ ([0, 0, 7] : List Word) ≠ [] ∧ (7 : Word) ≠ 0 := by decide
/-- From unnormalized sources each of the five commands of the statement succeeds, so its clause about `V[rd]` says
something, and normalizing the sources changes the state it starts from. -/
theorem witness_LeadingZerosDoNotCount_commands :
    ((two [0, 5] [0, 0, 3]).trimSource 1).trimSource 2 = two [5] [3] ∧
    (∀ i ∈ ([.mul 3 1 2, .modw 3 1 2, .norm 3 1, .rdw 1 0, .sub 3 1 2] : List Instr),
      after (fun t => t.status.lastResp) (exec i (two [0, 5] [0, 0, 3])) = some .ok) := by decide
theorem witness_PseudoInstructionEffects :
    ([2, 3] : List Word).length + 1 ≤ (blank 8).capacity ∧
    (one [5]).Holds 1 [5] ∧ mag [5] + mag [5] < 2 ^ (64 * ([5] : List Word).length) ∧
    ([M] : List Word).length + 1 ≤ (one [M]).capacity ∧ (trim (wordsN (1 + 1) (mag [5] * mag [5]))).length ≤ (one [5]).capacity ∧
    (two [9] [4]).Holds 1 [9] ∧ (two [9] [4]).Holds 2 [4] ∧ mag [4] ≤ mag [9] := by decide
theorem witness_UninitExactlyOnInvalidSource :
    (∃ r ∈ (Instr.add 3 1 2).sources, (one [5]).v[r].valid = false) ∧
    exec (.add 3 1 2) (one [5]) = .next ((one [5]).afterFail .uninit) := ⟨⟨2, by decide, by decide⟩, rfl⟩
theorem witness_UnderflowAndDivZeroExactly :
    exec (.sub 3 1 2) (two [4] [9]) = .next ((two [4] [9]).afterFail .subUnderflow) ∧
    exec (.modw 3 1 0) (one [5]) = .next ((one [5]).afterFail .divZero) := ⟨rfl, rfl⟩
theorem witness_CapacityExactlyWhenTooLong :
    exec (.add 3 1 2) (tight [M, M] [1]) = .next ((tight [M, M] [1]).afterFail .capacity) ∧
    CapacityExceeded (tight [M, M] [1]) (.add 3 1 2) := ⟨rfl, [M, M], [1], by decide, by decide, by decide, by decide⟩

end Sys2Proof.Tests
end

section
/-! PROOFS. The value functions of 10_state.md R28 to R32: magnitude, trim, comparison and bit scans. -/

namespace Sys2Proof.Machine

/-- The lowest `n` words, each at its weight, make the magnitude modulo 2^(64n). -/
theorem mag_mod_eq_sum (w : List Word) (n : Nat) :
    mag w % 2 ^ (64 * n) = ∑ i ∈ Finset.range n, (lw w i).toNat * 2 ^ (64 * i) := by
  induction n with
  | zero => simp [Nat.mod_one]
  | succ n ih => rw [mag_mod_succ, ih, Finset.sum_range_succ]

theorem mag_replicate_zero_append (k : Nat) (w : List Word) : mag (List.replicate k 0 ++ w) = mag w := by
  simpa [padTo] using mag_padTo w (k + w.length)

/-- Settles O24: the sum is the one of `mag_mod_eq_sum`, taken over all the words. -/
theorem magnitudeIsWeightedSum : Obligations.MagnitudeIsWeightedSum := by
  refine ⟨fun w => ?_, mag_replicate_zero_append, fun n v hv => ⟨length_wordsN n v, ?_, fun i hi => ?_⟩⟩
  · rw [← mag_mod_eq_sum, mag_mod_of_le (le_refl _)]
  · rw [mag_wordsN, Nat.mod_eq_of_lt hv]
  · rw [lw_wordsN, if_pos hi]

/-- What trim removes is leading zero words and nothing else (10_state.md R29). -/
theorem exists_eq_replicate_append_trim (w : List Word) : ∃ k, w = List.replicate k 0 ++ trim w := by
  fun_induction trim w with
  | case1 => exact ⟨0, rfl⟩
  | case2 => exact ⟨0, rfl⟩
  | case3 y ys ih =>
    obtain ⟨k, hk⟩ := ih
    exact ⟨k + 1, congrArg (0 :: ·) hk⟩
  | case4 => exact ⟨0, rfl⟩

theorem bitlen_mag_le (w : List Word) : bitlen (mag w) ≤ 64 * w.length := (bitlen_le_iff _ _).mpr (mag_lt w)

/-- A nonzero leading word puts the highest set bit into that word. -/
theorem lt_bitlen_mag_cons {x : Word} (hx : x ≠ 0) (xs : List Word) : 64 * xs.length < bitlen (mag (x :: xs)) := by
  have hpos : 0 < x.toNat := Nat.pos_of_ne_zero fun e => hx (BitVec.eq_of_toNat_eq e)
  have hle : 2 ^ (64 * xs.length) ≤ mag (x :: xs) :=
    le_trans (Nat.le_mul_of_pos_left _ hpos) (Nat.le_add_right _ _)
  exact Nat.lt_of_not_le fun h => absurd ((bitlen_le_iff _ _).mp h) (Nat.not_lt.mpr hle)

/-- The length of a normalized sequence, which the spec derives from trim (10_state.md R30). -/
theorem length_of_normalized {w : List Word} (h : normalized w = true) :
    w.length = max 1 ((bitlen (mag w) + 63) / 64) := by
  have hle := bitlen_mag_le w
  cases w with
  | nil => simp [normalized] at h
  | cons x xs =>
    rw [List.length_cons] at hle ⊢
    by_cases hx : x = 0
    · have hnil : xs.length = 0 := by simpa [normalized, hx] using h
      omega
    · have hlt := lt_bitlen_mag_cons hx xs
      omega

/-- Settles O25: the laws of `trim`, clause by clause. -/
theorem trimNormalizes : Obligations.TrimNormalizes := fun w hw =>
  ⟨mag_trim w, trim_ne_nil hw, normalized_trim hw, exists_eq_replicate_append_trim w, trim_of_normalized,
    length_of_normalized⟩

/-- The upper parts decide a comparison, and the lower parts where the upper ones agree. -/
theorem compare_add_mul {a b p x y : Nat} (ha : a < p) (hb : b < p) :
    compare (a + x * p) (b + y * p) = (compare x y).then (compare a b) := by
  rcases Nat.lt_trichotomy x y with h | rfl | h
  · have hm := Nat.mul_le_mul_right p (Nat.succ_le_of_lt h)
    rw [Nat.succ_mul] at hm
    rw [Nat.compare_eq_lt.mpr h, Nat.compare_eq_lt.mpr (by omega)]
    rfl
  · simp [Nat.compare_eq_ite_lt]
  · have hm := Nat.mul_le_mul_right p (Nat.succ_le_of_lt h)
    rw [Nat.succ_mul] at hm
    rw [Nat.compare_eq_gt.mpr h, Nat.compare_eq_gt.mpr (by omega)]
    rfl

/-- The comparison from index `n` down compares the lowest `n` words (10_state.md R31). -/
theorem cmpFrom_eq_compare (u w : List Word) (n : Nat) :
    cmpFrom u w n = compare (mag u % 2 ^ (64 * n)) (mag w % 2 ^ (64 * n)) := by
  induction n with
  | zero => simp [cmpFrom, Nat.mod_one]
  | succ n ih =>
    rw [mag_mod_succ, mag_mod_succ, compare_add_mul (Nat.mod_lt _ (by positivity)) (Nat.mod_lt _ (by positivity)),
      ← ih, cmpFrom]
    simp only [BitVec.lt_def]
    rcases Nat.lt_trichotomy (lw u n).toNat (lw w n).toNat with h | h | h
    · rw [if_neg (by omega), if_pos h, Nat.compare_eq_lt.mpr h]; rfl
    · rw [if_neg (by omega), if_neg (by omega), Nat.compare_eq_eq.mpr h]; rfl
    · rw [if_pos h, Nat.compare_eq_gt.mpr h]; rfl

/-- Settles O26: from the longer length on down, the comparison sees every word of both. -/
theorem cmpComparesMagnitudes : Obligations.CmpComparesMagnitudes := fun u w => by
  rw [cmpWords, cmpFrom_eq_compare, mag_mod_of_le (le_max_left _ _), mag_mod_of_le (le_max_right _ _)]

theorem trailingZeros_le (m n : Nat) : trailingZeros m n ≤ n := by
  fun_induction trailingZeros m n with
  | case1 => exact le_refl _
  | case2 => exact le_refl _
  | case3 n _ ih => omega

theorem mod_pow_trailingZeros (m n : Nat) : m % 2 ^ trailingZeros m n = 0 := by
  fun_induction trailingZeros m n with
  | case1 => exact Nat.mod_one m
  | case2 n h => exact h
  | case3 n _ ih => exact ih

theorem le_trailingZeros {m n t : Nat} (ht : t ≤ n) (hm : m % 2 ^ t = 0) : t ≤ trailingZeros m n := by
  fun_induction trailingZeros m n with
  | case1 => exact ht
  | case2 n => exact ht
  | case3 n hn ih =>
    have hne : t ≠ n + 1 := fun e => hn (e ▸ hm)
    exact ih (by omega)

/-- Settles O27: `bitlen` is bounded by the length, and `trailingZeros` finds the largest power of two. -/
theorem bitScansCountZeros : Obligations.BitScansCountZeros := by
  refine ⟨rfl, fun v hv => ⟨pow_bitlen_le hv.ne', lt_pow_bitlen v⟩, fun w =>
    ⟨Nat.sub_add_cancel (bitlen_mag_le w), trailingZeros_le _ _, mod_pow_trailingZeros _ _,
      fun t ht hm => le_trailingZeros ht hm, fun h0 => ⟨?_, ?_⟩⟩⟩
  · rw [bitscanForward, h0]; rfl
  · exact le_antisymm (trailingZeros_le _ _) (le_trailingZeros (le_refl _) (by rw [h0, Nat.zero_mod]))

end Sys2Proof.Machine
end

section
/-! PROOFS. The STATUS word, what a command leaves unchanged, and the step from what the host does next
(10_state.md R23, R25, R27). -/

namespace Sys2Proof.Machine

/-- Bit `r` of VALID is the valid bit of `V[r]`. -/
theorem validBits_getLsbD (s : State) (r : Reg) : s.validBits.getLsbD r = s.v[r].valid := by
  rw [State.validBits, BitVec.getLsbD_ofFnLE, dif_pos r.isLt]

/-- The fields of the STATUS word, read back from the bits 10_state.md R27 gives them. -/
theorem statusWord_fields (s : State) :
    s.statusWord.extractLsb' 0 1 = BitVec.ofBool s.status.fault ∧
    s.statusWord.extractLsb' 1 3 = 0 ∧
    s.statusWord.extractLsb' 4 4 = s.status.firstErr.number ∧
    s.statusWord.extractLsb' 8 4 = s.status.lastResp.number ∧
    s.statusWord.extractLsb' 12 4 = 0 ∧
    s.statusWord.extractLsb' 16 16 = s.validBits ∧
    s.statusWord.extractLsb' 32 32 = s.status.maxw := by
  simp (disch := decide) only [State.statusWord, BitVec.extractLsb'_append_eq_of_le,
    BitVec.extractLsb'_append_eq_of_add_le, Nat.reduceSub, BitVec.extractLsb'_eq_self, and_self]

/-- Settles O23: the two fields read bit by bit, FAULT and VALID, come from their slices. -/
theorem statusWordLayout : Obligations.StatusWordLayout := by
  intro s
  obtain ⟨hfault, hzero, hfirst, hlast, hzero', hvalid, hmaxw⟩ := statusWord_fields s
  refine ⟨?_, hzero, hfirst, hlast, hzero', fun r => ?_, hmaxw, rfl, rfl, rfl, rfl, rfl, rfl⟩
  · simpa using congrArg (·.getLsbD 0) hfault
  · rw [← validBits_getLsbD, ← hvalid]
    simp

/-! ### Registers and the command cycle: what is written and what is left (60_exceptions.md R229) -/

theorem writeReg_get (s : State) (r q : Reg) (w : List Word) :
    (s.writeReg r w).v[q] = if r = q then ⟨w, true⟩ else s.v[q] := by
  split
  · next e => subst e; exact writeReg_get_same s r w
  · next e => exact writeReg_get_other s r q w e

theorem apply_get_other {s : State} {w : Writes} {r : Reg} (h : w.reg.map Prod.fst ≠ some r) :
    (s.apply w).v[r] = s.v[r] := by
  obtain ⟨_ | ⟨q, ws⟩, m, o⟩ := w
  · rfl
  · exact writeReg_get_other s q r ws fun e => h (congrArg some e)

@[simp] theorem cycle_maxw (s : State) (e : Effect) : (s.cycle e).status.maxw = s.status.maxw := by
  cases e <;> simp [State.cycle]

@[simp] theorem cycle_inputs (s : State) (e : Effect) : (s.cycle e).inputs = s.inputs := by
  cases e <;> simp [State.cycle]

/-- Settles O17: every command is one cycle over an allowed effect, and a cycle writes what its effect names. -/
theorem commandFrame : Obligations.CommandFrame := by
  intro i s t ht
  obtain ⟨e, he, allowed⟩ := exec_shape i s
  obtain rfl : s.cycle e = t := by rw [he] at ht; injection ht
  refine ⟨fun r hr => ?_, fun hd => ?_, cycle_maxw s e, cycle_inputs s e⟩
  · cases e with
    | raise c => rfl
    | commit w =>
      obtain ⟨hreg, -, -⟩ := allowed
      exact apply_get_other (hreg ▸ hr)
  · cases e with
    | raise c => rfl
    | commit w =>
      obtain ⟨-, hrem, -⟩ := allowed
      have hnone : w.rem = none := by rw [hd] at hrem; simpa using hrem
      simp [State.cycle, hnone]

/-! ### The step, from what the host does next -/

/-- Between commands the block holds its state (60_exceptions.md R240). -/
theorem step_of_idle {s : State} (h : s.inputs = []) : step s = .next s := by
  simp [step, State.fetch, h]

/-- Reset replaces the state (70_reset_and_hazards.md R260). -/
theorem step_of_reset {s : State} {abandoned : Option Request} {rest : List HostInput}
    (h : s.inputs = .reset abandoned :: rest) : step s = .next { State.reset with inputs := rest } := by
  simp [step, State.fetch, h, State.takeReset]

/-- An illegal word answers ILLEGAL (30_encoding.md R76, 60_exceptions.md R222). -/
theorem step_of_illegal {s : State} {q : Request} {rest : List HostInput} {why : DecodeError}
    (h : s.inputs = .command q :: rest) (hd : decode q.cmd q.imm = .error why) :
    step s = .next ({ s with inputs := rest }.afterFail .illegal) := by
  simp [step, State.fetch, h, hd]

/-- A legal word runs its command (60_exceptions.md R229). -/
theorem step_of_command {s : State} {q : Request} {rest : List HostInput} {i : Instr}
    (h : s.inputs = .command q :: rest) (hd : decode q.cmd q.imm = .ok i) :
    step s = exec i { s with inputs := rest } := by
  simp [step, State.fetch, h, hd]

end Sys2Proof.Machine
end

section
/-! PROOFS. What a register that is not valid holds is never seen (10_state.md R24): a command has the same effect on two
states that agree on everything readable, and a command cycle keeps them in agreement. -/

namespace Sys2Proof.Machine

namespace SameReadable

variable {s t : State}

theorem refl (s : State) : SameReadable s s := ⟨rfl, rfl, rfl, rfl, fun _ => rfl, fun _ _ => rfl⟩

theorem capacity_eq (h : SameReadable s t) : s.capacity = t.capacity := by
  rw [State.capacity, State.capacity, h.status]

theorem validBits_eq (h : SameReadable s t) : s.validBits = t.validBits := by
  rw [State.validBits, State.validBits, funext h.valid]

theorem statusWord_eq (h : SameReadable s t) : s.statusWord = t.statusWord := by
  rw [State.statusWord, State.statusWord, h.validBits_eq, h.status]

theorem source_eq (h : SameReadable s t) (r : Reg) {k k' : List Word → Effect} (hk : ∀ a, k a = k' a) :
    s.source r k = t.source r k' := by
  cases hv : s.v[r].valid with
  | false => rw [source_of_invalid hv, source_of_invalid (h.valid r ▸ hv)]
  | true =>
    rw [source_of_holds (holds_of_valid hv), source_of_holds (holds_of_valid (h.valid r ▸ hv)), h.words r hv, hk]

theorem sources_eq (h : SameReadable s t) (r q : Reg) {k k' : List Word → List Word → Effect}
    (hk : ∀ a b, k a b = k' a b) : s.sources r q k = t.sources r q k' :=
  h.source_eq r fun a => h.source_eq q (hk a)

theorem within_eq (h : SameReadable s t) (n : Nat) (k : Unit → Effect) : s.within n k = t.within n k := by
  rw [State.within, State.within, h.capacity_eq]

theorem addEffect_eq (h : SameReadable s t) (rd : Reg) (a b : List Word) : addEffect s rd a b = addEffect t rd a b := by
  simp only [addEffect, h.within_eq]

/-- Both states give the command the same effect: it reads nothing but what they agree on. -/
theorem exec_eq (h : SameReadable s t) (i : Instr) :
    ∃ e, exec i s = .next (s.cycle e) ∧ exec i t = .next (t.cycle e) := by
  suffices hs : ∃ e e', exec i s = .next (s.cycle e) ∧ exec i t = .next (t.cycle e') ∧ e = e' by
    obtain ⟨e, e', he, he', rfl⟩ := hs
    exact ⟨e, he, he'⟩
  cases i with
  | nop => exact ⟨_, _, rfl, rfl, rfl⟩
  | ldi => exact ⟨_, _, rfl, rfl, rfl⟩
  | appw => exact ⟨_, _, rfl, rfl, h.source_eq _ fun _ => h.within_eq _ _⟩
  | mov => exact ⟨_, _, rfl, rfl, h.source_eq _ fun _ => rfl⟩
  | rdw => exact ⟨_, _, rfl, rfl, h.source_eq _ fun _ => rfl⟩
  | rdlen => exact ⟨_, _, rfl, rfl, h.source_eq _ fun _ => rfl⟩
  | rdstat => exact ⟨_, _, rfl, rfl, congrArg Effect.answer h.statusWord_eq⟩
  | rdrem => exact ⟨_, _, rfl, rfl, congrArg Effect.answer h.rem⟩
  | add => exact ⟨_, _, rfl, rfl, h.sources_eq _ _ (h.addEffect_eq _)⟩
  | sub => exact ⟨_, _, rfl, rfl, h.sources_eq _ _ fun _ _ => rfl⟩
  | shl => exact ⟨_, _, rfl, rfl, h.source_eq _ fun _ => rfl⟩
  | shr => exact ⟨_, _, rfl, rfl, h.source_eq _ fun _ => rfl⟩
  | shlx => exact ⟨_, _, rfl, rfl, h.source_eq _ fun _ => h.within_eq _ _⟩
  | cshl => exact ⟨_, _, rfl, rfl, h.source_eq _ fun _ => rfl⟩
  | cshr => exact ⟨_, _, rfl, rfl, h.source_eq _ fun _ => rfl⟩
  | mul => exact ⟨_, _, rfl, rfl, h.sources_eq _ _ fun _ _ => h.within_eq _ _⟩
  | divw => exact ⟨_, _, rfl, rfl, h.source_eq _ fun _ => rfl⟩
  | modw => exact ⟨_, _, rfl, rfl, h.source_eq _ fun _ => rfl⟩
  | norm => exact ⟨_, _, rfl, rfl, h.source_eq _ fun _ => rfl⟩

theorem inputs_taken (h : SameReadable s t) (rest : List HostInput) :
    SameReadable { s with inputs := rest } { t with inputs := rest } := { h with inputs := rfl }

theorem writeReg (h : SameReadable s t) (r : Reg) (w : List Word) : SameReadable (s.writeReg r w) (t.writeReg r w) := by
  refine ⟨h.rem, h.status, h.response, h.inputs, fun q => ?_, fun q hv => ?_⟩
  · rw [writeReg_get, writeReg_get]
    split
    · rfl
    · exact h.valid q
  · rw [writeReg_get] at hv ⊢
    rw [writeReg_get]
    split at hv
    · next e => rw [if_pos e, if_pos e]
    · next e => rw [if_neg e, if_neg e, h.words q hv]

theorem apply (h : SameReadable s t) (w : Writes) : SameReadable (s.apply w) (t.apply w) := by
  obtain ⟨reg, m, o⟩ := w
  cases reg with
  | none => exact { h with rem := by simp [h.rem] }
  | some p => exact { h.writeReg p.1 p.2 with rem := by simp [h.rem] }

theorem respond (h : SameReadable s t) (c : Resp) (o : Word) : SameReadable (s.respond c o) (t.respond c o) :=
  { h with status := congrArg (·.after c) h.status, response := rfl }

theorem cycle (h : SameReadable s t) (e : Effect) : SameReadable (s.cycle e) (t.cycle e) := by
  cases e with
  | raise c => exact h.respond _ _
  | commit w => exact (h.apply w).respond _ _

end SameReadable

/-- Settles O22: both states take the same input, and a command has the same effect on both. -/
theorem invalidContentsNeverSeen : Obligations.InvalidContentsNeverSeen := by
  intro s t s' t' h hs ht
  rcases step_cases hs with ⟨hi, rfl⟩ | ⟨a, rest, hi, rfl⟩ | ⟨q, rest, why, hi, hd, rfl⟩ | ⟨q, rest, i, hi, hd, hx⟩ <;>
    rw [h.inputs] at hi
  · rw [step_of_idle hi] at ht
    injection ht with ht
    exact ht ▸ h
  · rw [step_of_reset hi] at ht
    injection ht with ht
    exact ht ▸ SameReadable.refl _
  · rw [step_of_illegal hi hd] at ht
    injection ht with ht
    exact ht ▸ (h.inputs_taken rest).cycle (.raise .illegal)
  · rw [step_of_command hi hd] at ht
    obtain ⟨e, hes, het⟩ := (h.inputs_taken rest).exec_eq i
    rw [hes] at hx
    rw [het] at ht
    injection hx with hx
    injection ht with ht
    exact hx ▸ ht ▸ (h.inputs_taken rest).cycle e

end Sys2Proof.Machine
end

section
/-! PROOFS. The invariant of the machine, at reset and under every step. -/

namespace Sys2Proof.Machine

/-! ### The invariant after reset -/

/-- The parameter's range of 00_scope.md R6, read off its index. -/
theorem two_le_config_maxw : 2 ≤ Config.maxw.toNat := by
  have := Config.maxwIndex.isLt
  rw [Config.maxw, BitVec.toNat_ofNat]
  omega

theorem resetWords_ne_nil (r : Reg) : Config.resetWords r ≠ [] := by
  have := two_le_config_maxw
  simp only [Config.resetWords, ne_eq, List.take_eq_nil_iff, reduceCtorEq, or_false]
  omega

theorem reset_wf : State.reset.Wf where
  maxw := two_le_config_maxw
  nonempty r := by rw [reset_get]; exact resetWords_ne_nil r
  fits r := by rw [reset_get]; exact List.length_take_le _ _
  firstErr := iff_of_true rfl rfl
  lastResp h := absurd rfl h
  response _ hp := by cases hp

/-! ### A command writes sequences that a register holds (10_state.md R22) -/

/-- The sequence has 1 to MAXW words. -/
def State.Fits (s : State) (w : List Word) : Prop := 0 < w.length ∧ w.length ≤ s.capacity

/-- A sequence the effect writes to a register has 1 to MAXW words. -/
def Effect.WritesFitting (s : State) : Effect → Prop
  | .raise _ => True
  | .commit w => ∀ p ∈ w.reg, s.Fits p.2

theorem fits_of_length_eq {s : State} {a w : List Word} (ha : s.Fits a) (h : w.length = a.length) : s.Fits w := by
  rwa [State.Fits, h]

theorem writesFitting_write {s : State} (rd : Reg) {w : List Word} (h : s.Fits w) :
    (Effect.write rd w).WritesFitting s := by
  rintro _ ⟨⟩
  exact h

theorem writesFitting_writeRem {s : State} (rd : Reg) {w : List Word} (r : Word) (h : s.Fits w) :
    (Effect.writeRem rd w r).WritesFitting s := by
  rintro _ ⟨⟩
  exact h

/-- A command that only answers writes no register. -/
theorem writesFitting_answer (s : State) (o : Word) : (Effect.answer o).WritesFitting s := by
  rintro _ ⟨⟩

theorem writesFitting_within {s : State} {n : Nat} {k : Unit → Effect}
    (h : n ≤ s.capacity → (k ()).WritesFitting s) : (s.within n k).WritesFitting s := by
  rcases Nat.lt_or_ge s.capacity n with hn | hn
  · rw [within_of_lt hn]
    trivial
  · rw [within_of_le hn]
    exact h hn

namespace State.Wf

variable {s : State}

theorem register_fits (hs : s.Wf) (r : Reg) : s.Fits s.v[r].words :=
  ⟨List.length_pos_of_ne_nil (hs.nonempty r), hs.fits r⟩

theorem one_word_fits (hs : s.Wf) (x : Word) : s.Fits [x] := by
  have := hs.maxw
  exact ⟨Nat.one_pos, by rw [List.length_singleton]; omega⟩

/-- What a command reads from a register fits one. -/
theorem source_writesFitting (hs : s.Wf) {r : Reg} {k : List Word → Effect}
    (h : ∀ a, s.Fits a → (k a).WritesFitting s) : (s.source r k).WritesFitting s := by
  cases hv : s.v[r].valid with
  | false => rw [source_of_invalid hv]; trivial
  | true => rw [source_of_holds (holds_of_valid hv)]; exact h _ (hs.register_fits r)

/-- The sum is as long as the longer operand, or one word longer where that is within MAXW (41_add_sub.md R131). -/
theorem addEffect_writesFitting {a b : List Word} (ha : s.Fits a) (hb : s.Fits b) (rd : Reg) :
    (addEffect s rd a b).WritesFitting s := by
  have ⟨hpos, hal⟩ := ha
  have ⟨_, hbl⟩ := hb
  dsimp only [addEffect]
  split
  · exact writesFitting_within fun hn => writesFitting_write rd ⟨by simp, by simpa using hn⟩
  · exact writesFitting_write rd ⟨by rw [length_addSteps]; omega, by rw [length_addSteps]; omega⟩

/-- The difference is as long as the receiver (41_add_sub.md R133). -/
theorem subEffect_writesFitting {a : List Word} (ha : s.Fits a) (b : List Word) (rd : Reg) :
    (subEffect rd a b).WritesFitting s := by
  unfold subEffect
  split
  · trivial
  · exact writesFitting_write rd (fits_of_length_eq ha (length_subSteps a b _))

theorem shlx_fits {a : List Word} (ha : s.Fits a) {n q k : Nat} (hle : a.length ≤ n) (hn : n ≤ s.capacity) :
    s.Fits (shiftLeftWords (padTo a n) q k) := by
  have ⟨hpos, _⟩ := ha
  rw [State.Fits, length_shiftLeftWords, length_padTo hle]
  omega

theorem mulWords_fits {a : List Word} (ha : s.Fits a) {b : List Word} (hn : (mulWords a b).length ≤ s.capacity) :
    s.Fits (mulWords a b) :=
  ⟨List.length_pos_of_ne_nil (mulWords_ne_nil (List.ne_nil_of_length_pos ha.1)), hn⟩

theorem trim_fits {a : List Word} (ha : s.Fits a) : s.Fits (trim a) :=
  ⟨List.length_pos_of_ne_nil (trim_ne_nil (List.ne_nil_of_length_pos ha.1)), le_trans (length_trim_le a) ha.2⟩

/-- From a state with the invariant every command writes only what a register holds. -/
theorem exec_writesFitting (hs : s.Wf) (i : Instr) : ∃ e, exec i s = .next (s.cycle e) ∧ e.WritesFitting s := by
  cases i with
  | nop => exact ⟨_, rfl, writesFitting_answer s 0⟩
  | ldi rd imm => exact ⟨_, rfl, writesFitting_write rd (hs.one_word_fits imm)⟩
  | appw rd imm =>
    exact ⟨_, rfl, hs.source_writesFitting fun a _ => writesFitting_within fun hn =>
      writesFitting_write rd ⟨by simp, by simpa using hn⟩⟩
  | mov rd => exact ⟨_, rfl, hs.source_writesFitting fun _ ha => writesFitting_write rd ha⟩
  | rdw => exact ⟨_, rfl, hs.source_writesFitting fun _ _ => writesFitting_answer s _⟩
  | rdlen => exact ⟨_, rfl, hs.source_writesFitting fun _ _ => writesFitting_answer s _⟩
  | rdstat => exact ⟨_, rfl, writesFitting_answer s _⟩
  | rdrem => exact ⟨_, rfl, writesFitting_answer s _⟩
  | add rd =>
    exact ⟨_, rfl, hs.source_writesFitting fun _ ha => hs.source_writesFitting fun _ hb =>
      addEffect_writesFitting ha hb rd⟩
  | sub rd =>
    exact ⟨_, rfl, hs.source_writesFitting fun _ ha => hs.source_writesFitting fun b _ =>
      subEffect_writesFitting ha b rd⟩
  | shl rd =>
    exact ⟨_, rfl, hs.source_writesFitting fun _ ha =>
      writesFitting_write rd (fits_of_length_eq ha (length_shiftLeftWords _ _ _))⟩
  | shr rd =>
    exact ⟨_, rfl, hs.source_writesFitting fun _ ha =>
      writesFitting_write rd (fits_of_length_eq ha (length_shiftRightWords _ _ _))⟩
  | shlx rd =>
    exact ⟨_, rfl, hs.source_writesFitting fun a ha => writesFitting_within fun hn =>
      writesFitting_write rd (shlx_fits ha (length_le_grow a _) hn)⟩
  | cshl rd =>
    exact ⟨_, rfl, hs.source_writesFitting fun _ ha =>
      writesFitting_write rd (fits_of_length_eq ha (length_chunkLeft _ _))⟩
  | cshr rd =>
    exact ⟨_, rfl, hs.source_writesFitting fun _ ha =>
      writesFitting_write rd (fits_of_length_eq ha (length_chunkRight _ _))⟩
  | mul rd =>
    exact ⟨_, rfl, hs.source_writesFitting fun _ ha => hs.source_writesFitting fun _ _ =>
      writesFitting_within fun hn => writesFitting_write rd (mulWords_fits ha hn)⟩
  | divw rd _ imm =>
    refine ⟨_, rfl, hs.source_writesFitting fun _ ha => ?_⟩
    split
    · trivial
    · exact writesFitting_writeRem rd _ (fits_of_length_eq ha (length_divWalk _ _))
  | modw rd _ imm =>
    refine ⟨_, rfl, hs.source_writesFitting fun _ _ => ?_⟩
    split
    · trivial
    · exact writesFitting_writeRem rd _ (hs.one_word_fits _)
  | norm rd => exact ⟨_, rfl, hs.source_writesFitting fun _ ha => writesFitting_write rd (trim_fits ha)⟩

/-! ### The command cycle keeps the invariant -/

theorem writeReg (hs : s.Wf) (rd : Reg) {w : List Word} (hw : s.Fits w) : (s.writeReg rd w).Wf := by
  have hget (r : Reg) : s.Fits (s.writeReg rd w).v[r].words := by
    rw [writeReg_get]
    split
    · exact hw
    · exact hs.register_fits r
  exact { hs with
    nonempty := fun r => List.ne_nil_of_length_pos (hget r).1
    fits := fun r => (hget r).2 }

theorem apply (hs : s.Wf) {w : Writes} (hw : ∀ p ∈ w.reg, s.Fits p.2) : (s.apply w).Wf := by
  obtain ⟨reg, m, o⟩ := w
  cases reg with
  | none => exact { hs with }
  | some p => exact { hs.writeReg p.1 (hw p rfl) with }

/-- FAULT, FIRST_ERR and the response are set together (60_exceptions.md R229, R230). -/
theorem respond (hs : s.Wf) (code : Resp) {out : Word} (hout : code ≠ .ok → out = 0) : (s.respond code out).Wf where
  maxw := by rw [State.capacity, respond_status, after_maxw]; exact hs.maxw
  nonempty := hs.nonempty
  fits r := by rw [State.capacity, respond_status, after_maxw]; exact hs.fits r
  firstErr := by
    cases code with
    | ok => exact hs.firstErr
    | failed c =>
      rw [respond_status, after_failed_fault, after_failed_firstErr]
      refine iff_of_false (fun h => by cases h) ?_
      split
      · next hf => exact fun h => by cases hf.symm.trans (hs.firstErr.mpr h)
      · exact fun h => by cases h
  lastResp h := by
    cases code with
    | ok => exact absurd rfl h
    | failed c => rfl
  response p hp := by
    obtain rfl : ⟨code, out⟩ = p := by simpa using hp
    exact ⟨(after_lastResp _ _).symm, hout⟩

theorem cycle (hs : s.Wf) {e : Effect} (he : e.WritesFitting s) : (s.cycle e).Wf := by
  cases e with
  | raise c => exact hs.respond _ fun _ => rfl
  | commit w => exact (hs.apply he).respond _ fun h => absurd rfl h

theorem inputs_taken (hs : s.Wf) (rest : List HostInput) : { s with inputs := rest }.Wf := { hs with }

end State.Wf

/-- Settles O13: a step holds the state, resets it, or runs one command cycle whose effect writes only what a register
holds. -/
theorem stepKeepsInvariant : Obligations.StepKeepsInvariant := by
  intro s t hs ht
  rcases step_cases ht with ⟨-, rfl⟩ | ⟨_, rest, -, rfl⟩ | ⟨_, rest, _, -, -, rfl⟩ | ⟨_, rest, i, -, -, hx⟩
  · exact hs
  · exact reset_wf.inputs_taken rest
  · exact (hs.inputs_taken rest).cycle (e := .raise .illegal) trivial
  · obtain ⟨e, he, hfit⟩ := (hs.inputs_taken rest).exec_writesFitting i
    rw [he] at hx
    injection hx with hx
    exact hx ▸ (hs.inputs_taken rest).cycle hfit

end Sys2Proof.Machine
end

section
/-! PROOFS. The command word: what decodes to a command, the rows of the opcode map as patterns, and the words that are
illegal (30_encoding.md R71 to R77). -/

namespace Sys2Proof

/-! ### Operand forms and fields -/

/-- What a form asks of the fields it does not use (30_encoding.md R73, R76). -/
theorem wellFormed_iff (f : Fields) (form : Form) :
    f.WellFormed form ↔
      f.rsv = 0 ∧ (form.usesRd = false → f.rd = 0) ∧ (form.usesRs1 = false → f.rs1 = 0) ∧
        (form.usesRs2 = false → f.rs2 = 0) := by
  unfold Fields.WellFormed Fields.violation
  split_ifs <;> simp_all

/-- The violation of a form is in a field, never in the opcode. -/
theorem violation_ne_reservedOpcode (f : Fields) (form : Form) (opc : BitVec 8) :
    f.violation form ≠ some (.reservedOpcode opc) := by
  unfold Fields.violation
  split_ifs <;> simp

/-! ### Rows of the opcode map and commands -/

/-- What a row of the opcode map makes of its operands: a command of the row's form, encoded with the row's opcode, the
fields the form uses, and the immediate if the form uses it. -/
theorem build_of_opcodeEntry {opc : BitVec 8} {entry : OpcodeEntry} (h : opcodeEntry opc = some entry)
    (rd rs1 rs2 : Reg) (imm : Word) :
    (entry.build rd rs1 rs2 imm).form = entry.form ∧
    (entry.build rd rs1 rs2 imm).fields =
      ⟨opc, if entry.form.usesRd then regField rd else 0, if entry.form.usesRs1 then regField rs1 else 0,
        if entry.form.usesRs2 then regField rs2 else 0, 0⟩ ∧
    (entry.build rd rs1 rs2 imm).immediate = if entry.form.usesImm then imm else 0 := by
  unfold opcodeEntry at h
  split at h <;> cases h <;> exact ⟨rfl, rfl, rfl⟩

/-- Every command comes from the row of its opcode, out of the fields and the immediate it is encoded with. -/
theorem opcodeEntry_fields (i : Instr) :
    ∃ entry, opcodeEntry i.fields.opc = some entry ∧ entry.form = i.form ∧
      ∀ imm, (i.form.usesImm = true → i.immediate = imm) →
        entry.build i.fields.rd.toFin i.fields.rs1.toFin i.fields.rs2.toFin imm = i := by
  cases i <;> refine ⟨_, rfl, rfl, fun imm himm => ?_⟩ <;>
    simp_all [Instr.form, Form.usesImm, Instr.immediate, Instr.fields]

/-- The fields of every command are of its form, and its opcode is in the opcode map. -/
theorem encoding_statement (i : Instr) : Laws.Encoding.Statement i := by
  cases i
  exacts [Laws.Encoding.nop, Laws.Encoding.ldi _ _, Laws.Encoding.appw _ _, Laws.Encoding.mov _ _,
    Laws.Encoding.rdw _ _, Laws.Encoding.rdlen _, Laws.Encoding.rdstat, Laws.Encoding.rdrem,
    Laws.Encoding.add _ _ _, Laws.Encoding.sub _ _ _, Laws.Encoding.shl _ _ _, Laws.Encoding.shr _ _ _,
    Laws.Encoding.shlx _ _ _, Laws.Encoding.cshl _ _ _, Laws.Encoding.cshr _ _ _, Laws.Encoding.mul _ _ _,
    Laws.Encoding.divw _ _ _, Laws.Encoding.modw _ _ _, Laws.Encoding.norm _ _]

/-! ### Decoding -/

/-- A row of the opcode map decodes a word whose fields are of the row's form. -/
theorem decode_of_wellFormed {cmd : CmdWord} {entry : OpcodeEntry} (h : opcodeEntry (cmdFields cmd).opc = some entry)
    (hw : (cmdFields cmd).WellFormed entry.form) (imm : Word) :
    decode cmd imm =
      .ok (entry.build (cmdFields cmd).rd.toFin (cmdFields cmd).rs1.toFin (cmdFields cmd).rs2.toFin imm) := by
  simp only [decode, h, hw]

/-- Everything that can come of a legal word: its opcode has a row, and its fields are of the row's form. -/
theorem exists_of_decode_ok {cmd : CmdWord} {imm : Word} {i : Instr} (h : decode cmd imm = .ok i) :
    ∃ entry, opcodeEntry (cmdFields cmd).opc = some entry ∧ (cmdFields cmd).WellFormed entry.form ∧
      i = entry.build (cmdFields cmd).rd.toFin (cmdFields cmd).rs1.toFin (cmdFields cmd).rs2.toFin imm := by
  unfold decode at h
  split at h
  · cases h
  · next entry he =>
    split at h
    · cases h
    · next hw => exact ⟨entry, he, hw, by injection h with h; exact h.symm⟩

/-- Decoding and encoding are the same relation: a word decodes to the commands that are encoded with its fields, and with
the immediate where the form uses it. -/
theorem decode_eq_ok_iff (cmd : CmdWord) (imm : Word) (i : Instr) :
    decode cmd imm = .ok i ↔ i.fields = cmdFields cmd ∧ (i.form.usesImm = true → i.immediate = imm) := by
  constructor
  · intro h
    obtain ⟨entry, he, hw, rfl⟩ := exists_of_decode_ok h
    obtain ⟨hform, hfields, himm⟩ := build_of_opcodeEntry he (cmdFields cmd).rd.toFin (cmdFields cmd).rs1.toFin
      (cmdFields cmd).rs2.toFin imm
    obtain ⟨hrsv, hrd, hrs1, hrs2⟩ := (wellFormed_iff _ _).mp hw
    refine ⟨?_, fun hu => by rw [himm, ← hform, if_pos hu]⟩
    rw [hfields]
    generalize cmdFields cmd = f at *
    cases f
    simp_all [regField]
  · rintro ⟨hf, himm⟩
    obtain ⟨entry, he, hform, hbuild⟩ := opcodeEntry_fields i
    obtain ⟨hw, -⟩ := encoding_statement i
    rw [← hform, hf] at hw
    rw [decode_of_wellFormed (hf ▸ he) hw, ← hf, hbuild imm himm]

/-- A form without `imm` is sent with 0 (30_encoding.md R80). -/
theorem immediate_of_not_usesImm {i : Instr} (h : i.form.usesImm = false) : i.immediate = 0 := by
  obtain ⟨entry, he, hform, hbuild⟩ := opcodeEntry_fields i
  obtain ⟨-, -, himm⟩ := build_of_opcodeEntry he i.fields.rd.toFin i.fields.rs1.toFin i.fields.rs2.toFin i.immediate
  rw [hbuild _ fun _ => rfl, hform, h] at himm
  exact himm

/-- Settles O1: a command is encoded with its own fields and immediate, which is what decoding asks for. -/
theorem decodeEncodeAgree : Obligations.DecodeEncodeAgree := fun i =>
  (decode_eq_ok_iff _ _ i).mpr ⟨(cmdFields_word i.fields).symm, fun _ => rfl⟩

/-- Settles O2: the fields a word decodes from are the fields the command is encoded with, and a word is its fields. -/
theorem encodeDecodeAgree : Obligations.EncodeDecodeAgree := by
  intro cmd imm i h
  obtain ⟨hf, himm⟩ := (decode_eq_ok_iff cmd imm i).mp h
  refine ⟨(congrArg Fields.word hf).trans (word_cmdFields cmd), ?_⟩
  split
  · next hu => exact himm hu
  · next hu => exact immediate_of_not_usesImm (by simpa using hu)

/-- Settles O5: decoding asks nothing of an immediate the form does not use. -/
theorem unusedImmediateIgnored : Obligations.UnusedImmediateIgnored := by
  intro cmd imm imm' i h hu
  obtain ⟨hf, -⟩ := (decode_eq_ok_iff cmd imm i).mp h
  exact (decode_eq_ok_iff cmd imm' i).mpr ⟨hf, fun hu' => by rw [hu] at hu'; cases hu'⟩

/-! ### The rows of the opcode map as patterns (30_encoding.md R75) -/

/-- The mask of a form: the opcode, every register field the form does not use, and RSV. -/
def Form.mask (form : Form) : Fields where
  opc := .allOnes 8
  rd := if form.usesRd then 0 else .allOnes 4
  rs1 := if form.usesRs1 then 0 else .allOnes 4
  rs2 := if form.usesRs2 then 0 else .allOnes 4
  rsv := .allOnes 12

/-- The row of an opcode and a form. -/
def Form.pattern (form : Form) (opc : BitVec 8) : Pattern := ⟨opc, Fields.word ⟨opc, 0, 0, 0, 0⟩, form.mask.word⟩

/-- A mask of ones asks a field to be zero, a mask of zeros asks nothing. -/
theorem and_fieldMask {n : Nat} (x : BitVec n) (used : Bool) :
    x &&& (if used then 0 else .allOnes n) = 0 ↔ (used = false → x = 0) := by
  cases used <;> simp

/-- A word shows the pattern of an opcode and a form when it has the opcode and its fields are of the form. -/
theorem shows_pattern_iff (form : Form) (opc : BitVec 8) (cmd : CmdWord) :
    cmd &&& (form.pattern opc).mask = (form.pattern opc).value ↔
      (cmdFields cmd).opc = opc ∧ (cmdFields cmd).WellFormed form := by
  have hsel := selects_iff ⟨opc, 0, 0, 0, 0⟩ form.mask opc cmd
  simp only [Pattern.selects, beq_iff_eq, Form.mask, and_fieldMask, BitVec.and_allOnes] at hsel
  rw [wellFormed_iff]
  exact hsel.trans (by tauto)

/-- The patterns of the opcode map are the patterns of the rows the decoder reads. -/
theorem mem_opcodeMap_iff (p : Pattern) :
    p ∈ opcodeMap ↔ ∃ entry, opcodeEntry p.opc = some entry ∧ p = entry.form.pattern p.opc := by
  constructor
  · intro hp
    have hrow : ∀ p ∈ opcodeMap, (opcodeEntry p.opc).map (fun e => e.form.pattern p.opc) = some p := by decide
    simpa [eq_comm] using hrow p hp
  · rintro ⟨entry, he, hp⟩
    rw [hp]
    unfold opcodeEntry at he
    split at he <;> cases he <;> rename_i ho <;> rw [ho] <;> decide

/-- A word that shows the pattern of a row is the row's command. -/
theorem decode_of_shows {cmd : CmdWord} {opc : BitVec 8} {entry : OpcodeEntry} (h : opcodeEntry opc = some entry)
    (imm : Word) (hs : cmd &&& (entry.form.pattern opc).mask = (entry.form.pattern opc).value) :
    decode cmd imm =
      .ok (entry.build (cmdFields cmd).rd.toFin (cmdFields cmd).rs1.toFin (cmdFields cmd).rs2.toFin imm) := by
  obtain ⟨rfl, hw⟩ := (shows_pattern_iff _ _ _).mp hs
  exact decode_of_wellFormed h hw imm

/-- Settles O3: the mask and the match of each line are those of the form and the opcode of its row. -/
theorem decodeReadsEachRow : Obligations.DecodeReadsEachRow := fun _ imm =>
  ⟨decode_of_shows (opc := 0x00) rfl imm, decode_of_shows (opc := 0x01) rfl imm, decode_of_shows (opc := 0x02) rfl imm,
    decode_of_shows (opc := 0x03) rfl imm, decode_of_shows (opc := 0x08) rfl imm, decode_of_shows (opc := 0x09) rfl imm,
    decode_of_shows (opc := 0x0A) rfl imm, decode_of_shows (opc := 0x0B) rfl imm, decode_of_shows (opc := 0x10) rfl imm,
    decode_of_shows (opc := 0x11) rfl imm, decode_of_shows (opc := 0x20) rfl imm, decode_of_shows (opc := 0x21) rfl imm,
    decode_of_shows (opc := 0x22) rfl imm, decode_of_shows (opc := 0x23) rfl imm, decode_of_shows (opc := 0x24) rfl imm,
    decode_of_shows (opc := 0x30) rfl imm, decode_of_shows (opc := 0x40) rfl imm, decode_of_shows (opc := 0x41) rfl imm,
    decode_of_shows (opc := 0x50) rfl imm⟩

/-! ### Legal and illegal words (30_encoding.md R76, R77) -/

theorem mem_opcodes_iff (opc : BitVec 8) :
    opc ∈ opcodeMap.map Pattern.opc ↔ ∃ entry, opcodeEntry opc = some entry := by
  rw [List.mem_map]
  constructor
  · rintro ⟨p, hp, rfl⟩
    obtain ⟨entry, he, -⟩ := (mem_opcodeMap_iff p).mp hp
    exact ⟨entry, he⟩
  · rintro ⟨entry, he⟩
    exact ⟨entry.form.pattern opc, (mem_opcodeMap_iff _).mpr ⟨entry, he, rfl⟩, rfl⟩

/-- A row's pattern matches a word when the word's opcode has a row and its fields are of the row's form. -/
theorem exists_row_iff (cmd : CmdWord) :
    (∃ p ∈ opcodeMap, cmd &&& p.mask = p.value) ↔
      ∃ entry, opcodeEntry (cmdFields cmd).opc = some entry ∧ (cmdFields cmd).WellFormed entry.form := by
  constructor
  · rintro ⟨p, hp, hs⟩
    obtain ⟨entry, he, hpat⟩ := (mem_opcodeMap_iff p).mp hp
    rw [hpat] at hs
    obtain ⟨hopc, hw⟩ := (shows_pattern_iff _ _ _).mp hs
    exact ⟨entry, hopc ▸ he, hw⟩
  · rintro ⟨entry, he, hw⟩
    exact ⟨entry.form.pattern (cmdFields cmd).opc, (mem_opcodeMap_iff _).mpr ⟨entry, he, rfl⟩,
      (shows_pattern_iff _ _ _).mpr ⟨rfl, hw⟩⟩

theorem exists_decode_iff_exists_row (cmd : CmdWord) (imm : Word) :
    (∃ i, decode cmd imm = .ok i) ↔ ∃ p ∈ opcodeMap, cmd &&& p.mask = p.value := by
  rw [exists_row_iff]
  constructor
  · rintro ⟨i, hi⟩
    obtain ⟨entry, he, hw, -⟩ := exists_of_decode_ok hi
    exact ⟨entry, he, hw⟩
  · rintro ⟨entry, he, hw⟩
    exact ⟨_, decode_of_wellFormed he hw imm⟩

/-- The opcode names the row: at most one row matches a word. -/
theorem row_unique {cmd : CmdWord} {p q : Pattern} (hp : p ∈ opcodeMap) (hq : q ∈ opcodeMap)
    (hcp : cmd &&& p.mask = p.value) (hcq : cmd &&& q.mask = q.value) : p = q := by
  obtain ⟨e, he, hpe⟩ := (mem_opcodeMap_iff p).mp hp
  obtain ⟨d, hd, hqd⟩ := (mem_opcodeMap_iff q).mp hq
  rw [hpe] at hcp
  rw [hqd] at hcq
  obtain ⟨hp', -⟩ := (shows_pattern_iff _ _ _).mp hcp
  obtain ⟨hq', -⟩ := (shows_pattern_iff _ _ _).mp hcq
  have hopc : p.opc = q.opc := hp'.symm.trans hq'
  obtain rfl : e = d := Option.some.inj (he.symm.trans (hopc ▸ hd))
  rw [hpe, hqd, hopc]

/-- The three causes for which no row matches a word (30_encoding.md R76). -/
theorem not_exists_row_iff (cmd : CmdWord) :
    (¬ ∃ p ∈ opcodeMap, cmd &&& p.mask = p.value) ↔
      ((cmdFields cmd).opc ∉ opcodeMap.map Pattern.opc ∨ (cmdFields cmd).rsv ≠ 0 ∨
        ∃ entry, opcodeEntry (cmdFields cmd).opc = some entry ∧
          ((entry.form.usesRd = false ∧ (cmdFields cmd).rd ≠ 0) ∨
           (entry.form.usesRs1 = false ∧ (cmdFields cmd).rs1 ≠ 0) ∨
           (entry.form.usesRs2 = false ∧ (cmdFields cmd).rs2 ≠ 0))) := by
  rw [exists_row_iff, mem_opcodes_iff]
  simp only [wellFormed_iff]
  cases opcodeEntry (cmdFields cmd).opc with
  | none => simp
  | some entry => simp; tauto

theorem decode_error_of_no_row {cmd : CmdWord} (h : ¬ ∃ p ∈ opcodeMap, cmd &&& p.mask = p.value) (imm : Word) :
    ∃ why, decode cmd imm = .error why := by
  rw [← exists_decode_iff_exists_row cmd imm] at h
  cases hd : decode cmd imm with
  | error why => exact ⟨why, rfl⟩
  | ok i => exact absurd ⟨i, hd⟩ h

/-- Settles O4: the rows as patterns and the rows the decoder reads are one table. -/
theorem legalExactlyWhenOneRowMatches : Obligations.LegalExactlyWhenOneRowMatches := fun cmd imm =>
  ⟨exists_decode_iff_exists_row cmd imm, fun _ hp _ hq => row_unique hp hq, not_exists_row_iff cmd, fun _ _ hi hno =>
    let ⟨_, hd⟩ := decode_error_of_no_row hno imm
    Machine.step_of_illegal hi hd⟩

/-- The reserved opcodes are the ranges of 30_encoding.md R77. -/
theorem opcodeEntry_eq_none_iff (opc : BitVec 8) :
    opcodeEntry opc = none ↔
      (0x04 ≤ opc.toNat ∧ opc.toNat ≤ 0x07) ∨ (0x0C ≤ opc.toNat ∧ opc.toNat ≤ 0x0F) ∨
      (0x12 ≤ opc.toNat ∧ opc.toNat ≤ 0x1F) ∨ (0x25 ≤ opc.toNat ∧ opc.toNat ≤ 0x2F) ∨
      (0x31 ≤ opc.toNat ∧ opc.toNat ≤ 0x3F) ∨ (0x42 ≤ opc.toNat ∧ opc.toNat ≤ 0x4F) ∨
      (0x51 ≤ opc.toNat ∧ opc.toNat ≤ 0xFF) := by
  fun_cases opcodeEntry opc
  case case20 =>
    simp only [imp_false, BitVec.toNat_eq, BitVec.toNat_ofNat, Nat.reduceMod, Nat.reducePow, true_iff] at *
    omega
  all_goals decide

/-- A word is refused for its opcode exactly when the opcode is in no row, whatever else is at fault. -/
theorem decode_eq_reservedOpcode_iff (cmd : CmdWord) (imm : Word) :
    decode cmd imm = .error (.reservedOpcode (cmdFields cmd).opc) ↔ opcodeEntry (cmdFields cmd).opc = none := by
  constructor
  · intro h
    unfold decode at h
    split at h
    · assumption
    · split at h
      · next hv => cases h; exact absurd hv (violation_ne_reservedOpcode _ _ _)
      · cases h
  · intro h
    simp only [decode, h]

/-- Settles O6: the opcodes without a row are the reserved ranges. -/
theorem reservedOpcodesAreIllegal : Obligations.ReservedOpcodesAreIllegal := fun cmd imm =>
  have hiff := (opcodeEntry_eq_none_iff (cmdFields cmd).opc).symm.trans (decode_eq_reservedOpcode_iff cmd imm).symm
  ⟨hiff, fun hr _ _ hi => Machine.step_of_illegal hi (hiff.mp hr)⟩

/-! ### Fixed words, and the step on a legal word -/

/-- Settles O7, by evaluating the decoder. -/
theorem sampleWordsDecode : Obligations.SampleWordsDecode := by
  unfold Obligations.SampleWordsDecode
  decide

/-- Settles O8: a legal word runs its command. -/
theorem stepRunsDecodedCommand : Obligations.StepRunsDecodedCommand := fun _ _ _ _ => Machine.step_of_command

end Sys2Proof
end

section
/-! PROOFS. The assembler and the pseudo-instructions (30_encoding.md R80, R81), from what the commands they expand to do
where they succeed. -/

namespace Sys2Proof.Machine

/-! ### What a command does where it succeeds -/

section

variable {s : State} {rd rs1 rs2 : Reg} {a b : List Word}

theorem exec_appw_of_le (h : s.Holds rd a) (hfit : a.length + 1 ≤ s.capacity) (imm : Word) :
    exec (.appw rd imm) s = .next (s.afterWrite rd (a ++ [imm])) := by
  simp only [exec, execAppw, source_of_holds h, within_of_le hfit, perform_eq, cycle_write]

theorem exec_norm_of_holds (h : s.Holds rs1 a) : exec (.norm rd rs1) s = .next (s.afterWrite rd (trim a)) := by
  simp only [exec, execNorm, source_of_holds h, perform_eq, cycle_write]

/-- MUL where the normalized product fits (43_multiply.md R180). -/
theorem exec_mul_of_le (ha : s.Holds rs1 a) (hb : s.Holds rs2 b)
    (hfit : (trim (wordsN (a.length + b.length) (mag a * mag b))).length ≤ s.capacity) :
    exec (.mul rd rs1 rs2) s =
      .next (s.afterWrite rd (trim (wordsN (a.length + b.length) (mag a * mag b)))) := by
  simp only [exec, execMul, sources_of_holds ha hb, mulWords_eq, within_of_le hfit, perform_eq, cycle_write]

/-- The adder over all the words of both operands: its words and its carry make the exact sum (41_add_sub.md R131). -/
theorem mag_addSteps (a b : List Word) :
    mag (addSteps a b (max a.length b.length)).1 +
      (addSteps a b (max a.length b.length)).2.toNat * 2 ^ (64 * max a.length b.length) = mag a + mag b := by
  rw [addSteps_spec, mag_mod_of_le (le_max_left _ _), mag_mod_of_le (le_max_right _ _)]

/-- The carry past the most-significant word says that the sum does not fit (41_add_sub.md R131). -/
theorem addSteps_carry (a b : List Word) :
    (addSteps a b (max a.length b.length)).2 = decide (2 ^ (64 * max a.length b.length) ≤ mag a + mag b) := by
  have hsum := mag_addSteps a b
  have hlt := mag_lt (addSteps a b (max a.length b.length)).1
  rw [length_addSteps] at hlt
  cases hc : (addSteps a b (max a.length b.length)).2 <;> rw [hc] at hsum <;> simp at hsum ⊢ <;> omega

/-- ADD where the sum fits the longer length (41_add_sub.md R131). -/
theorem exec_add_of_lt (ha : s.Holds rs1 a) (hb : s.Holds rs2 b)
    (hlt : mag a + mag b < 2 ^ (64 * max a.length b.length)) :
    exec (.add rd rs1 rs2) s =
      .next (s.afterWrite rd (wordsN (max a.length b.length) (mag a + mag b))) := by
  have hcarry : (addSteps a b (max a.length b.length)).2 = false := by
    rw [addSteps_carry]; exact decide_eq_false (Nat.not_le.mpr hlt)
  have hmag := mag_addSteps a b
  rw [hcarry, Bool.toNat_false, Nat.zero_mul, Nat.add_zero] at hmag
  simp only [exec, execAdd, sources_of_holds ha hb, addEffect, hcarry, perform_eq, Bool.false_eq_true, if_false,
    cycle_write, eq_wordsN (length_addSteps _ _ _) hmag]

/-- ADD where the sum needs one word more and the register can hold it (41_add_sub.md R131). -/
theorem exec_add_of_ge (ha : s.Holds rs1 a) (hb : s.Holds rs2 b)
    (hge : 2 ^ (64 * max a.length b.length) ≤ mag a + mag b) (hfit : max a.length b.length + 1 ≤ s.capacity) :
    exec (.add rd rs1 rs2) s =
      .next (s.afterWrite rd (wordsN (max a.length b.length + 1) (mag a + mag b))) := by
  have hcarry : (addSteps a b (max a.length b.length)).2 = true := by
    rw [addSteps_carry]; exact decide_eq_true hge
  have hmag : mag (1 :: (addSteps a b (max a.length b.length)).1) = mag a + mag b := by
    rw [← mag_addSteps, hcarry, mag_cons, length_addSteps, Nat.add_comm]; rfl
  have hlen : (1 :: (addSteps a b (max a.length b.length)).1).length = max a.length b.length + 1 :=
    congrArg (· + 1) (length_addSteps _ _ _)
  simp only [exec, execAdd, sources_of_holds ha hb, addEffect, hcarry, within_of_le hfit, if_true, perform_eq,
    cycle_write, eq_wordsN hlen hmag]

/-- The subtractor over the receiver's words is the exact difference (41_add_sub.md R133). -/
theorem subSteps_eq_wordsN (h : mag b ≤ mag a) :
    (subSteps a b a.length).1 = wordsN a.length (mag a - mag b) := by
  have hspec := subSteps_spec a b a.length
  have hlt := mag_lt (subSteps a b a.length).1
  rw [length_subSteps] at hlt
  rw [mag_mod_of_le (le_refl _), Nat.mod_eq_of_lt (lt_of_le_of_lt h (mag_lt a))] at hspec
  refine eq_wordsN (length_subSteps _ _ _) ?_
  cases hbor : (subSteps a b a.length).2 <;> rw [hbor] at hspec <;> simp at hspec <;> omega

theorem exec_sub_of_le (ha : s.Holds rs1 a) (hb : s.Holds rs2 b) (h : mag b ≤ mag a) :
    exec (.sub rd rs1 rs2) s = .next (s.afterWrite rd (wordsN a.length (mag a - mag b))) := by
  have hcmp : cmpWords a b ≠ .lt := by
    rw [cmpComparesMagnitudes, Ne, Nat.compare_eq_lt]; omega
  simp only [exec, execSub, sources_of_holds ha hb, subEffect, if_neg hcmp, subSteps_eq_wordsN h, perform_eq, cycle_write]

/-! ### Commands one after another -/

theorem runAll_cons {i : Instr} {t : State} (h : exec i s = .next t) (is : List Instr) :
    runAll (i :: is) s = runAll is t := by
  simp only [runAll, h]

theorem runAll_single {i : Instr} {t : State} (h : exec i s = .next t) : runAll [i] s = .next t :=
  runAll_cons h []

theorem afterWrite_holds (s : State) (r : Reg) (w : List Word) : (s.afterWrite r w).Holds r w :=
  afterWrite_get_same s r w

/-- Of two writes to one register the second stays. -/
@[simp] theorem afterWrite_afterWrite (s : State) (r : Reg) (w w' : List Word) :
    (s.afterWrite r w).afterWrite r w' = s.afterWrite r w' := by
  simp [State.afterWrite]

/-- The APPWs of LDW append their words, in order, to what the register was just given. -/
theorem runAll_appw (s : State) (rd : Reg) (w xs : List Word) (hfit : w.length + xs.length ≤ s.capacity) :
    runAll (xs.map (.appw rd)) (s.afterWrite rd w) = .next (s.afterWrite rd (w ++ xs)) := by
  induction xs generalizing w with
  | nil => rw [List.append_nil]; rfl
  | cons x xs ih =>
    rw [List.length_cons] at hfit
    have happ := exec_appw_of_le (afterWrite_holds s rd w) (by rw [afterWrite_capacity]; omega) x
    rw [afterWrite_afterWrite] at happ
    rw [List.map_cons, runAll_cons happ, ih (w ++ [x]) (by simp; omega), List.append_assoc, List.singleton_append]

/-- ADD of a register to itself doubles its value where the sum fits (41_add_sub.md R131). -/
theorem exec_add_self (h : s.Holds rs1 a)
    (hfit : mag a + mag a < 2 ^ (64 * a.length) ∨ a.length + 1 ≤ s.capacity) :
    ∃ r, exec (.add rd rs1 rs1) s = .next (s.afterWrite rd r) ∧ mag r = 2 * mag a := by
  rw [Nat.two_mul]
  by_cases hlt : mag a + mag a < 2 ^ (64 * a.length)
  · refine ⟨_, exec_add_of_lt h h (by rwa [max_self]), ?_⟩
    rw [mag_wordsN, max_self, Nat.mod_eq_of_lt hlt]
  · refine ⟨_, exec_add_of_ge h h (by rw [max_self]; omega) (by rw [max_self]; omega), ?_⟩
    have ha := mag_lt a
    rw [mag_wordsN, max_self, Nat.mod_eq_of_lt]
    rw [Nat.mul_add, Nat.pow_add]
    omega

/-- The product of two sequences fits the words of both (43_multiply.md R181). -/
theorem mag_mul_lt (a b : List Word) : mag a * mag b < 2 ^ (64 * (a.length + b.length)) := by
  rw [Nat.mul_add, Nat.pow_add]
  exact Nat.mul_lt_mul'' (mag_lt a) (mag_lt b)

end

/-- Settles O52: each expansion is run command by command. -/
theorem pseudoInstructionEffects : Obligations.PseudoInstructionEffects := by
  intro s vd vs vs1 vs2
  refine ⟨fun x xs hfit => ?ldw, rfl, fun a ha hfit => ?dbl, fun a ha hfit => ?sqr, fun a ha => ?trim,
    fun a b ha hb hle => ?subn⟩
  case ldw =>
    have hldi : exec (.ldi vd x) s = .next (s.afterWrite vd [x]) := rfl
    exact (runAll_cons hldi _).trans (runAll_appw s vd [x] xs (by rw [List.length_singleton]; omega))
  case dbl =>
    obtain ⟨r, hadd, hmag⟩ := exec_add_self (rd := vd) ha hfit
    exact ⟨_, r, runAll_single hadd, afterWrite_holds s vd r, hmag⟩
  case sqr =>
    refine ⟨_, _, runAll_single (exec_mul_of_le ha ha hfit), afterWrite_holds s vd _, ?_⟩
    rw [mag_trim, mag_wordsN, Nat.mod_eq_of_lt (mag_mul_lt a a)]
  case trim => exact runAll_single (exec_norm_of_holds ha)
  case subn =>
    refine (runAll_cons (exec_sub_of_le ha hb hle) _).trans (runAll_single ?_)
    rw [exec_norm_of_holds (afterWrite_holds s vd _), afterWrite_afterWrite]

/-! ### Assembler lines -/

/-- Settles O53, by running the assembler. -/
theorem assemblerExamples : Obligations.AssemblerExamples := by
  unfold Obligations.AssemblerExamples
  decide

end Sys2Proof.Machine
end

section
/-! PROOFS. Construction, copy and read-back commands (40_construct_read.md R100 to R107). -/

namespace Sys2Proof.Machine

section

variable {s : State} {r rd rs1 : Reg} {a : List Word}

/-! ### A source, valid or not -/

theorem perform_source_of_invalid (h : s.v[r].valid = false) (k : List Word → Effect) :
    s.perform (s.source r k) = .next (s.afterFail .uninit) := by
  rw [source_of_invalid h, perform_eq, cycle_raise]

theorem perform_source_of_holds (h : s.Holds r a) (k : List Word → Effect) :
    s.perform (s.source r k) = .next (s.cycle (k a)) := by
  rw [source_of_holds h, perform_eq]

/-- Whatever the command, a source that is not valid makes it fail with UNINIT (60_exceptions.md R223). -/
theorem exec_of_invalid_source {i : Instr} (hr : r ∈ i.sources) (h : s.v[r].valid = false) :
    exec i s = .next (s.afterFail .uninit) := by
  cases i with
  | nop | ldi | rdstat | rdrem => cases hr
  | appw | mov | rdw | rdlen | norm | shl | shr | shlx | cshl | cshr | divw | modw =>
    obtain rfl := List.mem_singleton.mp hr
    exact perform_source_of_invalid h _
  | add _ rs1 rs2 | sub _ rs1 rs2 | mul _ rs1 rs2 =>
    have hor : s.v[rs1].valid = false ∨ s.v[rs2].valid = false := by
      rcases List.mem_pair.mp hr with rfl | rfl
      · exact .inl h
      · exact .inr h
    exact congrArg (fun e => Host.Outcome.next (s.cycle e)) (sources_of_invalid hor _)

/-! ### What a command does on a register that holds `a` -/

/-- APPW on a full register (40_construct_read.md R102). -/
theorem exec_appw_of_lt (h : s.Holds rd a) (hfull : s.capacity < a.length + 1) (imm : Word) :
    exec (.appw rd imm) s = .next (s.afterFail .capacity) := by
  simp only [exec, execAppw, perform_source_of_holds h, within_of_lt hfull, cycle_raise]

theorem exec_mov_of_holds (h : s.Holds rs1 a) : exec (.mov rd rs1) s = .next (s.afterWrite rd a) :=
  perform_source_of_holds h _

theorem exec_rdw_of_holds (h : s.Holds rs1 a) (imm : Word) :
    exec (.rdw rs1 imm) s = .next (s.afterAnswer (lw a imm.toNat)) :=
  perform_source_of_holds h _

theorem exec_rdlen_of_holds (h : s.Holds rs1 a) :
    exec (.rdlen rs1) s = .next (s.afterAnswer (BitVec.ofNat 64 a.length)) :=
  perform_source_of_holds h _

/-! ### Words and lengths -/

/-- A word appended at the least-significant end moves the others up by one place (40_construct_read.md R102). -/
theorem mag_append_word (w : List Word) (x : Word) : mag (w ++ [x]) = mag w * 2 ^ 64 + x.toNat := by
  simp [mag_append]

/-- With the invariant, what a register holds has 1 to MAXW words (10_state.md R22). -/
theorem State.Wf.fits_of_holds (hs : s.Wf) (h : s.Holds r a) : s.Fits a := by
  have hfits := hs.register_fits r
  rwa [h] at hfits

/-- MAXW is a 32-bit number, so a word count up to it is read back whole (40_construct_read.md R105). -/
theorem toNat_length_of_fits (h : s.Fits a) : (BitVec.ofNat 64 a.length).toNat = a.length := by
  obtain ⟨-, hle⟩ := h
  have hcap : s.capacity < 2 ^ 32 := s.status.maxw.isLt
  rw [BitVec.toNat_ofNat, Nat.mod_eq_of_lt (by omega)]

end

/-- Settles O29: none of the four has a source to check, so each is its command cycle. -/
theorem nopLdiRdstatRdremComplete : Obligations.NopLdiRdstatRdremComplete := fun s rd imm =>
  ⟨perform_eq s (.commit {}), perform_eq s (.write rd [imm]), perform_eq s (.answer s.statusWord),
    perform_eq s (.answer s.rem)⟩

/-- Settles O30: the source check, then the capacity check. -/
theorem appwAppendsWord : Obligations.AppwAppendsWord := fun _ _ imm =>
  ⟨exec_of_invalid_source (List.mem_singleton_self _), fun w h =>
    ⟨mag_append_word w imm, fun hfull => exec_appw_of_lt h hfull imm, fun hfit => exec_appw_of_le h hfit imm⟩⟩

/-- Settles O31: the source check is the only one, and the words read are the words written. -/
theorem movCopies : Obligations.MovCopies := fun _ _ _ =>
  ⟨exec_of_invalid_source (List.mem_singleton_self _), fun _ h => exec_mov_of_holds h⟩

/-- Settles O32: the word read is a base-2^64 digit of the magnitude, and 0 beyond the length. -/
theorem rdwReadsWord : Obligations.RdwReadsWord := by
  refine fun s rs1 imm => ⟨exec_of_invalid_source (List.mem_singleton_self _), fun a h => ⟨?_, fun hbeyond => ?_⟩⟩
  · rw [exec_rdw_of_holds h, lw_eq_digit]
  · rw [exec_rdw_of_holds h, lw_beyond hbeyond]

/-- Settles O33: the bounds of the word count are the invariant's. -/
theorem rdlenReadsLength : Obligations.RdlenReadsLength := by
  refine fun s rs1 => ⟨exec_of_invalid_source (List.mem_singleton_self _), fun a h =>
    ⟨exec_rdlen_of_holds h, fun hs => ?_⟩⟩
  have hfits := hs.fits_of_holds h
  exact ⟨toNat_length_of_fits hfits, hfits⟩

end Sys2Proof.Machine
end

section
/-! PROOFS. The result laws of the adder and the subtractor (41_add_sub.md R130 to R134), from the commands' exact results. -/

namespace Sys2Proof.Machine

/-! ### Normal forms and magnitudes -/

/-- The normal form read off the magnitude: the leading word is nonzero where the magnitude reaches its weight
(10_state.md R30). -/
theorem normalized_iff (w : List Word) :
    normalized w = true ↔ w.length = 1 ∨ 2 ^ (64 * (w.length - 1)) ≤ mag w := by
  cases w with
  | nil => decide
  | cons x xs =>
    have hlead : x ≠ 0 ↔ 2 ^ (64 * xs.length) ≤ mag (x :: xs) := by
      rw [mag_cons]
      constructor
      · intro hx
        have hpos : 0 < x.toNat := Nat.pos_of_ne_zero fun e => hx (BitVec.eq_of_toNat_eq e)
        exact le_trans (Nat.le_mul_of_pos_left _ hpos) (Nat.le_add_right _ _)
      · rintro hle rfl
        exact absurd (mag_lt xs) (Nat.not_lt.mpr (by simpa using hle))
    rw [List.length_cons, Nat.add_sub_cancel, ← hlead]
    simp [normalized]

/-- Of two sequences of one length, the one that is not below a normalized one is normalized. -/
theorem normalized_of_mag_le {u w : List Word} (hl : u.length = w.length) (hm : mag u ≤ mag w)
    (hu : normalized u = true) : normalized w = true := by
  rw [normalized_iff] at hu ⊢
  rw [hl] at hu
  exact hu.imp_right (le_trans · hm)

/-- The magnitude decides what a sequence is trimmed to (10_state.md R29, R30). -/
theorem trim_eq_of_mag_eq {u w : List Word} (hu : u ≠ []) (hw : w ≠ []) (h : mag u = mag w) : trim u = trim w := by
  have hmag : mag (trim u) = mag (trim w) := by rw [mag_trim, mag_trim, h]
  refine eq_of_mag_eq ?_ hmag
  rw [length_of_normalized (normalized_trim hu), length_of_normalized (normalized_trim hw), hmag]

theorem mag_lt_of_length_le {w : List Word} {n : Nat} (h : w.length ≤ n) : mag w < 2 ^ (64 * n) :=
  lt_of_lt_of_le (mag_lt w) (Nat.pow_le_pow_right (by omega) (by omega))

/-- Trim undoes the zero words that a longer length put in front. -/
theorem trim_wordsN_mag {a : List Word} {n : Nat} (ha : a ≠ []) (hle : a.length ≤ n) :
    trim (wordsN n (mag a)) = trim a := by
  refine trim_eq_of_mag_eq (List.ne_nil_of_length_pos ?_) ha ?_
  · rw [length_wordsN]
    exact lt_of_lt_of_le (List.length_pos_of_ne_nil ha) hle
  · rw [mag_wordsN, mag_mod_of_le hle]

/-- A sequence whose word at index `n` is 0 and which has none above it is below the weight of that word. -/
theorem mag_lt_of_lw_eq_zero {w : List Word} {n : Nat} (hl : w.length ≤ n + 1) (h : lw w n = 0) :
    mag w < 2 ^ (64 * n) := by
  have hsucc := mag_mod_succ w n
  rw [mag_mod_of_le hl, h] at hsucc
  rw [hsucc]
  simpa using Nat.mod_lt (mag w) (Nat.two_pow_pos (64 * n))

/-! ### The length of a sum -/

/-- The word count of the sum (41_add_sub.md R132): the longer operand's, and one more where the sum does not fit it. -/
def sumLength (a b : List Word) : Nat :=
  if 2 ^ (64 * max a.length b.length) ≤ mag a + mag b then max a.length b.length + 1 else max a.length b.length

section

variable {a b : List Word}

theorem sumLength_of_lt (h : mag a + mag b < 2 ^ (64 * max a.length b.length)) :
    sumLength a b = max a.length b.length := if_neg (Nat.not_le.mpr h)

theorem sumLength_of_ge (h : 2 ^ (64 * max a.length b.length) ≤ mag a + mag b) :
    sumLength a b = max a.length b.length + 1 := if_pos h

theorem sumLength_eq_or (a b : List Word) :
    sumLength a b = max a.length b.length ∨ sumLength a b = max a.length b.length + 1 :=
  (lt_or_ge _ _).imp sumLength_of_lt sumLength_of_ge

theorem sumLength_eq_succ_iff (a b : List Word) :
    sumLength a b = max a.length b.length + 1 ↔ 2 ^ (64 * max a.length b.length) ≤ mag a + mag b := by
  refine ⟨fun h => ?_, sumLength_of_ge⟩
  by_contra hlt
  rw [sumLength_of_lt (Nat.not_le.mp hlt)] at h
  omega

theorem length_le_sumLength (a b : List Word) : a.length ≤ sumLength a b := by
  rcases sumLength_eq_or a b with h | h <;> omega

/-- One more word always holds the sum (41_add_sub.md R132). -/
theorem mag_add_lt (a b : List Word) : mag a + mag b < 2 ^ (64 * sumLength a b) := by
  rcases lt_or_ge (mag a + mag b) (2 ^ (64 * max a.length b.length)) with hlt | hge
  · rwa [sumLength_of_lt hlt]
  · have ha := mag_lt_of_length_le (le_max_left a.length b.length)
    have hb := mag_lt_of_length_le (le_max_right a.length b.length)
    rw [sumLength_of_ge hge, Nat.mul_add, Nat.pow_add]
    omega

theorem mag_wordsN_sumLength (a b : List Word) : mag (wordsN (sumLength a b) (mag a + mag b)) = mag a + mag b := by
  rw [mag_wordsN, Nat.mod_eq_of_lt (mag_add_lt a b)]

/-- Two leading words of 0 leave room for the carry of the words below them (41_add_sub.md R132). -/
theorem mag_add_lt_of_leading_zeros (ha : lw a (max a.length b.length - 1) = 0)
    (hb : lw b (max a.length b.length - 1) = 0) : mag a + mag b < 2 ^ (64 * max a.length b.length) := by
  have hla := le_max_left a.length b.length
  have hlb := le_max_right a.length b.length
  generalize max a.length b.length = n at *
  cases n with
  | zero => simp [List.eq_nil_of_length_eq_zero (Nat.le_zero.mp hla), List.eq_nil_of_length_eq_zero (Nat.le_zero.mp hlb)]
  | succ k =>
    have hma := mag_lt_of_lw_eq_zero hla ha
    have hmb := mag_lt_of_lw_eq_zero hlb hb
    rw [Nat.mul_add, Nat.pow_add]
    omega

/-- The sum is normalized where an operand of the longer length is, or where the carry became a word (41_add_sub.md R132). -/
theorem normalized_sum
    (h : (a.length = max a.length b.length ∧ normalized a = true) ∨
      (b.length = max a.length b.length ∧ normalized b = true) ∨ sumLength a b = max a.length b.length + 1) :
    normalized (wordsN (sumLength a b) (mag a + mag b)) = true := by
  rcases lt_or_ge (mag a + mag b) (2 ^ (64 * max a.length b.length)) with hlt | hge
  · have hkeep {u : List Word} (hl : u.length = max a.length b.length) (hm : mag u ≤ mag a + mag b) :
        normalized u = true → normalized (wordsN (sumLength a b) (mag a + mag b)) = true :=
      normalized_of_mag_le (by rw [length_wordsN, sumLength_of_lt hlt, hl]) (by rwa [mag_wordsN_sumLength])
    rcases h with ⟨hl, hn⟩ | ⟨hl, hn⟩ | hcarry
    · exact hkeep hl (Nat.le_add_right _ _) hn
    · exact hkeep hl (Nat.le_add_left _ _) hn
    · exact absurd ((sumLength_eq_succ_iff a b).mp hcarry) (Nat.not_le.mpr hlt)
  · rw [normalized_iff, mag_wordsN_sumLength, length_wordsN, sumLength_of_ge hge]
    exact .inr hge

end

/-! ### What ADD and SUB do -/

section

variable {s : State} {rd rs1 rs2 : Reg} {a b : List Word}

/-- A command of two sources fails with UNINIT where either is not valid (60_exceptions.md R223). -/
theorem exec_of_invalid_sources {i : Instr} (hi : i.sources = [rs1, rs2])
    (h : s.v[rs1].valid = false ∨ s.v[rs2].valid = false) : exec i s = .next (s.afterFail .uninit) :=
  h.elim (exec_of_invalid_source (by simp [hi])) (exec_of_invalid_source (by simp [hi]))

/-- ADD where the sum needs one word more and the register is full (41_add_sub.md R131). -/
theorem exec_add_of_full (ha : s.Holds rs1 a) (hb : s.Holds rs2 b)
    (hge : 2 ^ (64 * max a.length b.length) ≤ mag a + mag b) (hfull : s.capacity < max a.length b.length + 1) :
    exec (.add rd rs1 rs2) s = .next (s.afterFail .capacity) := by
  have hcarry : (addSteps a b (max a.length b.length)).2 = true := by
    rw [addSteps_carry]; exact decide_eq_true hge
  simp only [exec, execAdd, sources_of_holds ha hb, addEffect, hcarry, within_of_lt hfull, if_true, perform_eq, cycle_raise]

/-- ADD where the register can hold the sum: its words, as many as it needs (41_add_sub.md R132). -/
theorem exec_add_of_fits (ha : s.Holds rs1 a) (hb : s.Holds rs2 b)
    (hfit : mag a + mag b < 2 ^ (64 * max a.length b.length) ∨ max a.length b.length + 1 ≤ s.capacity) :
    exec (.add rd rs1 rs2) s = .next (s.afterWrite rd (wordsN (sumLength a b) (mag a + mag b))) := by
  rcases lt_or_ge (mag a + mag b) (2 ^ (64 * max a.length b.length)) with hlt | hge
  · rw [sumLength_of_lt hlt, exec_add_of_lt ha hb hlt]
  · rw [sumLength_of_ge hge, exec_add_of_ge ha hb hge (hfit.resolve_left (Nat.not_lt.mpr hge))]

/-- An ADD that succeeds found the room for its sum, so its result is the exact one. -/
theorem eq_afterWrite_of_add_ok {t : State} (ha : s.Holds rs1 a) (hb : s.Holds rs2 b)
    (ht : exec (.add rd rs1 rs2) s = .next t) (hok : t.status.lastResp = .ok) :
    t = s.afterWrite rd (wordsN (sumLength a b) (mag a + mag b)) := by
  by_cases hfit : mag a + mag b < 2 ^ (64 * max a.length b.length) ∨ max a.length b.length + 1 ≤ s.capacity
  · rw [exec_add_of_fits ha hb hfit] at ht
    injection ht with ht
    exact ht.symm
  · obtain ⟨hge, hfull⟩ := not_or.mp hfit
    rw [exec_add_of_full ha hb (Nat.not_lt.mp hge) (Nat.not_le.mp hfull)] at ht
    injection ht with ht
    rw [← ht, afterFail_lastResp] at hok
    cases hok

theorem addWithCarry_comm (x y : Word) : addWithCarry x y = addWithCarry y x := by
  simp only [addWithCarry, Nat.add_comm x.toNat]

theorem addStep_comm (x y : Word) (c : Bool) : addStep x y c = addStep y x c := by
  simp only [addStep, addWithCarry_comm x]

theorem addSteps_comm (a b : List Word) (n : Nat) : addSteps a b n = addSteps b a n := by
  induction n with
  | zero => rfl
  | succ n ih => simp only [addSteps, ih, addStep_comm (lw a n)]

/-- ADD does not depend on the order of its operands (41_add_sub.md R132). -/
theorem exec_add_comm (ha : s.Holds rs1 a) (hb : s.Holds rs2 b) :
    exec (.add rd rs2 rs1) s = exec (.add rd rs1 rs2) s := by
  simp only [exec, execAdd, sources_of_holds ha hb, sources_of_holds hb ha, addEffect, max_comm b.length,
    addSteps_comm b a]

/-- SUB of an operand above the receiver (41_add_sub.md R133). -/
theorem exec_sub_of_lt (ha : s.Holds rs1 a) (hb : s.Holds rs2 b) (h : mag a < mag b) :
    exec (.sub rd rs1 rs2) s = .next (s.afterFail .subUnderflow) := by
  have hcmp : cmpWords a b = .lt := by rw [cmpComparesMagnitudes, Nat.compare_eq_lt]; exact h
  simp only [exec, execSub, sources_of_holds ha hb, subEffect, if_pos hcmp, perform_eq, cycle_raise]

/-- A receiver that is not below the operand leaves no borrow (41_add_sub.md R134). -/
theorem subSteps_no_borrow (h : mag b ≤ mag a) : (subSteps a b a.length).2 = false := by
  have hdiff : mag a - mag b < 2 ^ (64 * a.length) := lt_of_le_of_lt (Nat.sub_le _ _) (mag_lt a)
  have hspec := subSteps_spec a b a.length
  rw [subSteps_eq_wordsN h, mag_wordsN, Nat.mod_eq_of_lt hdiff, Nat.mod_eq_of_lt (lt_of_le_of_lt h (mag_lt a)),
    Nat.mod_eq_of_lt (mag_lt a), Nat.sub_add_cancel h] at hspec
  simpa using hspec

/-- ADD, then SUB of the same operand, then NORM gives the receiver back, trimmed (41_add_sub.md R134). -/
theorem runAll_add_sub_norm {vt vx vy : Reg} (hs : s.Wf) (ha : s.Holds vx a) (hb : s.Holds vy b) (hne : vt ≠ vy)
    (hfit : mag a + mag b < 2 ^ (64 * max a.length b.length) ∨ max a.length b.length + 1 ≤ s.capacity) :
    runAll [.add vt vx vy, .sub vt vt vy, .norm vt vt] s = .next (s.afterWrite vt (trim a)) := by
  obtain ⟨hpos, -⟩ := hs.fits_of_holds ha
  obtain ⟨r, hadd, hlen, hmag⟩ : ∃ r, exec (.add vt vx vy) s = .next (s.afterWrite vt r) ∧
      r.length = sumLength a b ∧ mag r = mag a + mag b :=
    ⟨_, exec_add_of_fits ha hb hfit, length_wordsN _ _, mag_wordsN_sumLength a b⟩
  have hb' : (s.afterWrite vt r).Holds vy b := (afterWrite_get_other s vt vy r hne).trans hb
  have hsub := exec_sub_of_le (rd := vt) (afterWrite_holds s vt r) hb' (by omega)
  rw [hmag, Nat.add_sub_cancel, afterWrite_afterWrite] at hsub
  rw [runAll_cons hadd, runAll_cons hsub, runAll_single (exec_norm_of_holds (afterWrite_holds s vt _)),
    afterWrite_afterWrite, trim_wordsN_mag (List.ne_nil_of_length_pos hpos) (hlen ▸ length_le_sumLength a b)]

end

/-- Settles O34: the source check, then whether the sum fits, then the capacity check. -/
theorem addGivesExactSum : Obligations.AddGivesExactSum := fun _ _ _ _ =>
  ⟨exec_of_invalid_sources rfl, fun _ _ ha hb =>
    ⟨exec_add_of_lt ha hb, exec_add_of_ge ha hb, exec_add_of_full ha hb⟩⟩

/-- Settles O35: each law is one of the words of the exact sum, `sumLength` of them. -/
theorem addResultLaws : Obligations.AddResultLaws := by
  intro s t rd rs1 rs2 a b ha hb ht hok n sum r
  have hr : r = wordsN (sumLength a b) sum := by
    simp only [r, eq_afterWrite_of_add_ok ha hb ht hok, afterWrite_get_same, sum]
  have hlen : r.length = sumLength a b := by rw [hr, length_wordsN]
  rw [hlen, hr]
  exact ⟨mag_wordsN_sumLength a b, fun hlt => by rw [sumLength_of_lt hlt], fun hge => by rw [sumLength_of_ge hge],
    sumLength_eq_or a b, sumLength_eq_succ_iff a b,
    fun ha0 hb0 => sumLength_of_lt (mag_add_lt_of_leading_zeros ha0 hb0), exec_add_comm ha hb, normalized_sum⟩

/-- Settles O36: the source check, then the comparison. -/
theorem subGivesExactDifference : Obligations.SubGivesExactDifference := fun _ _ _ _ =>
  ⟨exec_of_invalid_sources rfl, fun _ _ ha hb => ⟨exec_sub_of_lt ha hb, exec_sub_of_le ha hb⟩⟩

/-- A machine in which V1 holds the normalized 2^64 and V2 holds 1: their difference needs one word less than the
receiver has (41_add_sub.md R134). -/
def leadingZeroCase : State := (State.reset.writeReg 1 [1, 0]).writeReg 2 [1]

theorem leadingZeroCase_wf : leadingZeroCase.Wf :=
  (reset_wf.writeReg 1 (w := [1, 0]) ⟨Nat.two_pos, reset_wf.maxw⟩).writeReg 2 ⟨Nat.one_pos, Nat.le_of_lt reset_wf.maxw⟩

theorem leadingZeroCase_holds : leadingZeroCase.Holds 1 [1, 0] ∧ leadingZeroCase.Holds 2 [1] :=
  ⟨by simp only [State.Holds, leadingZeroCase, writeReg_get]; rfl, writeReg_get_same _ _ _⟩

/-- A normalized receiver may leave a leading zero word (41_add_sub.md R134). -/
theorem exists_sub_not_normalized :
    ∃ (s t : State) (a : List Word), s.Wf ∧ s.Holds 1 a ∧ normalized a = true ∧ exec (.sub 3 1 2) s = .next t ∧
      t.status.lastResp = .ok ∧ normalized t.v[(3 : Reg)].words = false := by
  obtain ⟨ha, hb⟩ := leadingZeroCase_holds
  refine ⟨leadingZeroCase, _, [1, 0], leadingZeroCase_wf, ha, by decide, exec_sub_of_le ha hb (by decide),
    afterWrite_lastResp _ _ _, ?_⟩
  rw [afterWrite_get_same]
  decide

/-- Settles O37: the exact words and the borrow, the receiver 2^64 less 1, and the round trip. -/
theorem subResultLaws : Obligations.SubResultLaws :=
  ⟨fun _ _ h => ⟨subSteps_eq_wordsN h, subSteps_no_borrow h⟩, exists_sub_not_normalized,
    fun s vt _ _ a _ hs ha hb hne hfit => ⟨_, runAll_add_sub_norm hs ha hb hne hfit, afterWrite_lastResp s vt (trim a),
      afterWrite_holds s vt (trim a)⟩⟩

end Sys2Proof.Machine
end

section
/-! PROOFS. The multi-word shifter (42_shift.md R150 to R156), from the equations of its loops on magnitudes. -/

namespace Sys2Proof.Machine

/-! ### The growth of the expanding shift (42_shift.md R153) -/

theorem bitlen_eq_zero_iff (v : Nat) : bitlen v = 0 ↔ v = 0 := by
  rw [← Nat.le_zero, bitlen_le_iff, Nat.pow_zero, Nat.lt_one_iff]

/-- A left shift moves the highest set bit of a nonzero value up by the amount, so it says which powers of two bound the
shifted value. -/
theorem mul_two_pow_lt_iff {v : Nat} (hv : v ≠ 0) (s m : Nat) : v * 2 ^ s < 2 ^ m ↔ bitlen v + s ≤ m := by
  rcases Nat.le_total s m with hle | hle
  · obtain ⟨k, rfl⟩ := Nat.exists_eq_add_of_le' hle
    rw [Nat.pow_add, Nat.mul_lt_mul_right (Nat.two_pow_pos s), ← bitlen_le_iff, Nat.add_le_add_iff_right]
  · have hbit : bitlen v ≠ 0 := mt (bitlen_eq_zero_iff v).mp hv
    have hbig : 2 ^ m ≤ v * 2 ^ s :=
      le_trans (Nat.pow_le_pow_right Nat.two_pos hle) (Nat.le_mul_of_pos_left _ (Nat.pos_of_ne_zero hv))
    exact iff_of_false (Nat.not_lt.mpr hbig) (by omega)

theorem grow_of_bitlen_eq_zero {a : List Word} (h : bitlen (mag a) = 0) (s : Nat) : grow a s = a.length := if_pos h

theorem grow_of_bitlen_pos {a : List Word} (h : 0 < bitlen (mag a)) (s : Nat) :
    grow a s = max a.length ((bitlen (mag a) + s + 63) / 64) := if_neg h.ne'

/-- The lengths that the growth does not exceed are those of at least `|a|` words that hold the shifted value. -/
theorem grow_le_iff (a : List Word) (s n : Nat) :
    grow a s ≤ n ↔ a.length ≤ n ∧ mag a * 2 ^ s < 2 ^ (64 * n) := by
  rcases Nat.eq_zero_or_pos (bitlen (mag a)) with hzero | hpos
  · have hmag : mag a = 0 := (bitlen_eq_zero_iff _).mp hzero
    rw [grow_of_bitlen_eq_zero hzero, hmag, Nat.zero_mul]
    exact (and_iff_left (Nat.two_pow_pos _)).symm
  · have hmag : mag a ≠ 0 := mt (bitlen_eq_zero_iff _).mpr hpos.ne'
    rw [grow_of_bitlen_pos hpos, mul_two_pow_lt_iff hmag]
    omega

/-- The grown length holds the shifted value. -/
theorem mag_mul_lt_grow (a : List Word) (s : Nat) : mag a * 2 ^ s < 2 ^ (64 * grow a s) :=
  ((grow_le_iff a s (grow a s)).mp le_rfl).2

/-- No bit of the shifted value is lost in the grown length (42_shift.md R154). -/
theorem mag_wordsN_grow (a : List Word) (s : Nat) : mag (wordsN (grow a s) (mag a * 2 ^ s)) = mag a * 2 ^ s := by
  rw [mag_wordsN, Nat.mod_eq_of_lt (mag_mul_lt_grow a s)]

/-! ### What a shift does on a register that holds `a` -/

section

variable {s : State} {rd rs1 : Reg} {a : List Word}

theorem exec_shl_of_holds (h : s.Holds rs1 a) (imm : Word) :
    exec (.shl rd rs1 imm) s = .next (s.afterWrite rd (wordsN a.length (mag a * 2 ^ imm.toNat))) := by
  rw [← shiftLeftWords_eq]
  exact perform_source_of_holds h _

theorem exec_shr_of_holds (h : s.Holds rs1 a) (imm : Word) :
    exec (.shr rd rs1 imm) s = .next (s.afterWrite rd (wordsN a.length (mag a / 2 ^ imm.toNat))) := by
  rw [← shiftRightWords_eq]
  exact perform_source_of_holds h _

theorem exec_cshl_of_holds (h : s.Holds rs1 a) (imm : Word) :
    exec (.cshl rd rs1 imm) s = .next (s.afterWrite rd (wordsN a.length (mag a * 2 ^ (64 * imm.toNat)))) := by
  rw [← chunkLeft_eq]
  exact perform_source_of_holds h _

theorem exec_cshr_of_holds (h : s.Holds rs1 a) (imm : Word) :
    exec (.cshr rd rs1 imm) s = .next (s.afterWrite rd (wordsN a.length (mag a / 2 ^ (64 * imm.toNat)))) := by
  rw [← chunkRight_eq]
  exact perform_source_of_holds h _

/-- SHLX where the grown length exceeds MAXW (42_shift.md R154). -/
theorem exec_shlx_of_lt (h : s.Holds rs1 a) {imm : Word} (hfull : s.capacity < grow a imm.toNat) :
    exec (.shlx rd rs1 imm) s = .next (s.afterFail .capacity) := by
  simp only [exec, execShlx, perform_source_of_holds h, within_of_lt hfull, cycle_raise]

/-- SHLX where a register can hold the grown length (42_shift.md R154). -/
theorem exec_shlx_of_le (h : s.Holds rs1 a) {imm : Word} (hfit : grow a imm.toNat ≤ s.capacity) :
    exec (.shlx rd rs1 imm) s =
      .next (s.afterWrite rd (wordsN (grow a imm.toNat) (mag a * 2 ^ imm.toNat))) := by
  simp only [exec, execShlx, perform_source_of_holds h, within_of_le hfit, cycle_write, shiftLeftWords_eq,
    length_padTo (length_le_grow a _), mag_padTo]

end

/-! ### Shifts by whole words as shifts by bits (42_shift.md R155, R156) -/

section

variable {imm : Word} (h : 64 * imm.toNat < 2 ^ 64)
include h

theorem toNat_64_mul : (64 * imm).toNat = 64 * imm.toNat := by
  rw [BitVec.toNat_mul]
  exact Nat.mod_eq_of_lt h

theorem chunkLeft_eq_shiftLeftWords (a : List Word) :
    chunkLeft a imm.toNat = shiftLeftWords a (wordPart (64 * imm)) (bitPart (64 * imm)) := by
  rw [chunkLeft_eq, shiftLeftWords_eq, toNat_64_mul h]

theorem chunkRight_eq_shiftRightWords (a : List Word) :
    chunkRight a imm.toNat = shiftRightWords a (wordPart (64 * imm)) (bitPart (64 * imm)) := by
  rw [chunkRight_eq, shiftRightWords_eq, toNat_64_mul h]

theorem exec_cshl_eq_shl (s : State) (rd rs1 : Reg) : exec (.cshl rd rs1 imm) s = exec (.shl rd rs1 (64 * imm)) s := by
  simp only [exec, execCshl, execShl, chunkLeft_eq_shiftLeftWords h]

theorem exec_cshr_eq_shr (s : State) (rd rs1 : Reg) : exec (.cshr rd rs1 imm) s = exec (.shr rd rs1 (64 * imm)) s := by
  simp only [exec, execCshr, execShr, chunkRight_eq_shiftRightWords h]

end

/-- Settles O28: the growth is the bound that `grow_le_iff` gives for every length. -/
theorem growIsLeastLength : Obligations.GrowIsLeastLength := fun a s =>
  ⟨fun hzero => grow_of_bitlen_eq_zero hzero s, fun hpos => grow_of_bitlen_pos hpos s, length_le_grow a s,
    mag_mul_lt_grow a s, fun n hlen hlt => (grow_le_iff a s n).mpr ⟨hlen, hlt⟩⟩

/-- Settles O38: the source check, then the loop as a multiplication; `words_n` keeps only the value modulo 2^(64n). -/
theorem shlShiftsWithinLength : Obligations.ShlShiftsWithinLength := by
  refine fun s rd rs1 imm => ⟨exec_of_invalid_source (List.mem_singleton_self _), fun a h => ?_⟩
  rw [wordsN_mod, exec_shl_of_holds h]

/-- Settles O39: the source check, then the loop as a division. -/
theorem shrShiftsWithinLength : Obligations.ShrShiftsWithinLength := fun _ _ _ imm =>
  ⟨exec_of_invalid_source (List.mem_singleton_self _), fun _ h => exec_shr_of_holds h imm⟩

/-- Settles O40: the source check, then the capacity check on the grown length, which holds the shifted value. -/
theorem shlxLosesNoBits : Obligations.ShlxLosesNoBits := fun _ _ _ imm =>
  ⟨exec_of_invalid_source (List.mem_singleton_self _), fun a h =>
    ⟨exec_shlx_of_lt h, fun hfit => ⟨exec_shlx_of_le h hfit, mag_wordsN_grow a imm.toNat⟩⟩⟩

/-- Settles O41: as for SHL, with whole words. -/
theorem cshlShiftsWholeWords : Obligations.CshlShiftsWholeWords := by
  refine fun s rd rs1 imm => ⟨exec_of_invalid_source (List.mem_singleton_self _), fun a h => ?_⟩
  rw [wordsN_mod, exec_cshl_of_holds h]

/-- Settles O42: as for SHR, with whole words. -/
theorem cshrShiftsWholeWords : Obligations.CshrShiftsWholeWords := fun _ _ _ imm =>
  ⟨exec_of_invalid_source (List.mem_singleton_self _), fun _ h => exec_cshr_of_holds h imm⟩

/-- Settles O43: both shifts write the same words of the same magnitude. -/
theorem shiftsAgree : Obligations.ShiftsAgree := by
  refine fun s rd rs1 imm => ⟨fun hamount => ⟨exec_cshl_eq_shl hamount s rd rs1, exec_cshr_eq_shr hamount s rd rs1⟩,
    fun a h hlen hroom => ?_⟩
  have hfit : grow a imm.toNat ≤ s.capacity := hroom.trans_le hlen
  rw [exec_shlx_of_le h hfit, exec_shl_of_holds h, hroom]

end Sys2Proof.Machine
end

section
/-! PROOFS. The schoolbook multiplier (43_multiply.md R180, R181), from the exact product that its loops come to. -/

namespace Sys2Proof.Machine

/-! ### Normalized sequences and their magnitudes -/

section

variable {u w r : List Word}

theorem ne_nil_of_normalized (h : normalized w = true) : w ≠ [] := by
  rintro rfl
  cases h

/-- A value has one normalized sequence (10_state.md R30). -/
theorem eq_of_normalized_of_mag_eq (hu : normalized u = true) (hw : normalized w = true) (h : mag u = mag w) : u = w := by
  rw [← trim_of_normalized hu, ← trim_of_normalized hw]
  exact trim_eq_of_mag_eq (ne_nil_of_normalized hu) (ne_nil_of_normalized hw) h

/-- A nonzero value reaches the weight of the leading word of its normalized sequence. -/
theorem two_pow_le_mag_of_normalized (hw : normalized w = true) (hpos : 0 < mag w) :
    2 ^ (64 * (w.length - 1)) ≤ mag w := by
  rcases (normalized_iff w).mp hw with hone | hle
  · rw [hone]
    exact hpos
  · exact hle

/-- The product of two nonzero values has the words of both, or one less (43_multiply.md R181). -/
theorem length_product_bounds (hu : normalized u = true) (hw : normalized w = true) (hr : normalized r = true)
    (hu0 : 0 < mag u) (hw0 : 0 < mag w) (h : mag r = mag u * mag w) :
    u.length + w.length - 1 ≤ r.length ∧ r.length ≤ u.length + w.length := by
  have hule := two_pow_le_mag_of_normalized hu hu0
  have hwle := two_pow_le_mag_of_normalized hw hw0
  have hrle := two_pow_le_mag_of_normalized hr (h ▸ Nat.mul_pos hu0 hw0)
  have hlower : 2 ^ (64 * (u.length - 1) + 64 * (w.length - 1)) < 2 ^ (64 * r.length) := calc
    _ = 2 ^ (64 * (u.length - 1)) * 2 ^ (64 * (w.length - 1)) := Nat.pow_add _ _ _
    _ ≤ mag u * mag w := Nat.mul_le_mul hule hwle
    _ = mag r := h.symm
    _ < 2 ^ (64 * r.length) := mag_lt r
  have hupper : 2 ^ (64 * (r.length - 1)) < 2 ^ (64 * (u.length + w.length)) := calc
    _ ≤ mag r := hrle
    _ = mag u * mag w := h
    _ < 2 ^ (64 * (u.length + w.length)) := mag_mul_lt u w
  rw [Nat.pow_lt_pow_iff_right Nat.one_lt_two] at hlower hupper
  omega

end

/-! ### The words of the product -/

section

variable {a b a' b' : List Word}

theorem mag_mulWords (a b : List Word) : mag (mulWords a b) = mag a * mag b := by
  rw [mulWords_eq, mag_trim, mag_wordsN, Nat.mod_eq_of_lt (mag_mul_lt a b)]

/-- The product is always normalized, as it is trimmed and not empty (43_multiply.md R180). -/
theorem normalized_mulWords (ha : a ≠ []) : normalized (mulWords a b) = true := by
  have hpos : 0 < a.length + b.length := Nat.add_pos_left (List.length_pos_of_ne_nil ha) _
  rw [mulWords_eq]
  exact normalized_trim (List.ne_nil_of_length_pos (by rwa [length_wordsN]))

/-- The product depends on the magnitudes of its operands only (43_multiply.md R181). -/
theorem mulWords_congr (ha : a ≠ []) (ha' : a' ≠ []) (hma : mag a' = mag a) (hmb : mag b' = mag b) :
    mulWords a' b' = mulWords a b :=
  eq_of_normalized_of_mag_eq (normalized_mulWords ha') (normalized_mulWords ha)
    (by rw [mag_mulWords, mag_mulWords, hma, hmb])

theorem mulWords_comm (a b : List Word) : mulWords a b = mulWords b a := by
  rw [mulWords_eq, mulWords_eq, Nat.add_comm, Nat.mul_comm]

/-- The word count of a nonzero product, from the normalized operands (43_multiply.md R181). -/
theorem length_mulWords_bounds (ha : a ≠ []) (hb : b ≠ []) (ha0 : 0 < mag a) (hb0 : 0 < mag b) :
    (trim a).length + (trim b).length - 1 ≤ (mulWords a b).length ∧
      (mulWords a b).length ≤ (trim a).length + (trim b).length := by
  rw [← mag_trim] at ha0 hb0
  refine length_product_bounds (normalized_trim ha) (normalized_trim hb) (normalized_mulWords ha) ha0 hb0 ?_
  rw [mag_mulWords, mag_trim, mag_trim]

end

/-! ### What MUL does -/

section

variable {s : State} {rd rs1 rs2 : Reg} {a b : List Word}

/-- With the invariant, no register holds the empty sequence (10_state.md R22). -/
theorem State.Wf.ne_nil_of_holds (hs : s.Wf) (ha : s.Holds rs1 a) : a ≠ [] := by
  obtain ⟨hpos, -⟩ := hs.fits_of_holds ha
  exact List.ne_nil_of_length_pos hpos

/-- MUL where the normalized product is too long (43_multiply.md R180). -/
theorem exec_mul_of_lt (ha : s.Holds rs1 a) (hb : s.Holds rs2 b)
    (hfull : s.capacity < (trim (wordsN (a.length + b.length) (mag a * mag b))).length) :
    exec (.mul rd rs1 rs2) s = .next (s.afterFail .capacity) := by
  simp only [exec, execMul, sources_of_holds ha hb, mulWords_eq, within_of_lt hfull, perform_eq, cycle_raise]

/-- A MUL that succeeds found the room for its product, so its result is the exact one. -/
theorem eq_afterWrite_of_mul_ok {t : State} (ha : s.Holds rs1 a) (hb : s.Holds rs2 b)
    (ht : exec (.mul rd rs1 rs2) s = .next t) (hok : t.status.lastResp = .ok) :
    t = s.afterWrite rd (mulWords a b) := by
  rw [mulWords_eq]
  rcases lt_or_ge s.capacity (trim (wordsN (a.length + b.length) (mag a * mag b))).length with hfull | hfit
  · rw [exec_mul_of_lt ha hb hfull] at ht
    injection ht with ht
    rw [← ht, afterFail_lastResp] at hok
    cases hok
  · rw [exec_mul_of_le ha hb hfit] at ht
    injection ht with ht
    exact ht.symm

/-- MUL does not depend on the order of its operands (43_multiply.md R181). -/
theorem exec_mul_comm (ha : s.Holds rs1 a) (hb : s.Holds rs2 b) :
    exec (.mul rd rs2 rs1) s = exec (.mul rd rs1 rs2) s := by
  simp only [exec, execMul, sources_of_holds ha hb, sources_of_holds hb ha, mulWords_comm b a]

end

/-- Settles O44: the source check, then the capacity check on the normalized product. -/
theorem mulGivesNormalizedProduct : Obligations.MulGivesNormalizedProduct := fun _ _ _ _ =>
  ⟨exec_of_invalid_sources rfl, fun _ _ ha hb => ⟨exec_mul_of_lt ha hb, exec_mul_of_le ha hb⟩⟩

/-- Settles O45: each law is one of the exact product's words; the invariant says that the sources are not empty. -/
theorem mulResultLaws : Obligations.MulResultLaws := by
  intro s t rd rs1 rs2 a b hs ha hb ht hok r
  have hr : r = mulWords a b := by
    simp only [r, eq_afterWrite_of_mul_ok ha hb ht hok, afterWrite_get_same]
  have hane : a ≠ [] := hs.ne_nil_of_holds ha
  have hbne : b ≠ [] := hs.ne_nil_of_holds hb
  have hnorm : normalized (mulWords a b) = true := normalized_mulWords hane
  have hlen := length_of_normalized hnorm
  rw [mag_mulWords] at hlen
  rw [hr, mag_mulWords]
  exact ⟨mulWords_eq a b, rfl, hnorm, hlen, length_mulWords_bounds hane hbne,
    fun _ _ ha' _ hma hmb => mulWords_congr hane ha' hma hmb, exec_mul_comm ha hb,
    fun w _ => Nat.mul_mod _ _ _⟩

end Sys2Proof.Machine
end

section
/-! PROOFS. The single-word divider (44_divide.md R190 to R194), from the exact quotient and remainder of its walk. -/

namespace Sys2Proof.Machine

/-! ### The quotient, the remainder and the words -/

section

variable {d : Word} (hd : d ≠ 0)
include hd

theorem toNat_pos_of_ne_zero : 0 < d.toNat :=
  Nat.pos_of_ne_zero fun hzero => hd (BitVec.eq_of_toNat_eq hzero)

/-- The remainder of a division by a word is one word (44_divide.md R192). -/
theorem toNat_remainder (v : Nat) : (BitVec.ofNat 64 (v % d.toNat)).toNat = v % d.toNat := by
  rw [BitVec.toNat_ofNat, Nat.mod_eq_of_lt (lt_trans (Nat.mod_lt v (toNat_pos_of_ne_zero hd)) d.isLt)]

end

/-- The length of the dividend holds the quotient (44_divide.md R192). -/
theorem mag_wordsN_quotient (a : List Word) (n : Nat) : mag (wordsN a.length (mag a / n)) = mag a / n := by
  rw [mag_wordsN, Nat.mod_eq_of_lt (lt_of_le_of_lt (Nat.div_le_self _ _) (mag_lt a))]

/-- Modulo 2^64 - 1 every word weighs 1, so a magnitude is the sum of its words (44_divide.md R194). -/
theorem mag_modEq_sum (a : List Word) : mag a ≡ (a.map BitVec.toNat).sum [MOD 2 ^ 64 - 1] := by
  induction a with
  | nil => rfl
  | cons x xs ih =>
    have hweight : 2 ^ (64 * xs.length) ≡ 1 [MOD 2 ^ 64 - 1] := by
      have hbase : 2 ^ 64 ≡ 1 [MOD 2 ^ 64 - 1] := by decide
      simpa only [Nat.pow_mul, Nat.one_pow] using hbase.pow xs.length
    simpa only [mag_cons, List.map_cons, List.sum_cons, Nat.mul_one] using (hweight.mul_left x.toNat).add ih

/-! ### What a division does on a register that holds `a` -/

section

variable {s : State} {rd rs1 : Reg} {a : List Word} {d : Word} (h : s.Holds rs1 a)
include h

/-- DIVW by 0 (44_divide.md R191). -/
theorem exec_divw_of_eq_zero (hd : d = 0) : exec (.divw rd rs1 d) s = .next (s.afterFail .divZero) := by
  simp only [exec, execDivw, perform_source_of_holds h, if_pos hd, cycle_raise]

/-- MODW by 0 (44_divide.md R193). -/
theorem exec_modw_of_eq_zero (hd : d = 0) : exec (.modw rd rs1 d) s = .next (s.afterFail .divZero) := by
  simp only [exec, execModw, perform_source_of_holds h, if_pos hd, cycle_raise]

/-- DIVW by another word: the words of the quotient, as many as the dividend has (44_divide.md R191). -/
theorem exec_divw_of_ne_zero (hd : d ≠ 0) :
    exec (.divw rd rs1 d) s =
      .next (s.afterDivide rd (wordsN a.length (mag a / d.toNat)) (BitVec.ofNat 64 (mag a % d.toNat))) := by
  obtain ⟨hquot, hrem⟩ := divWalk_eq a d hd
  simp only [exec, execDivw, perform_source_of_holds h, if_neg hd, cycle_writeRem, hquot, hrem]

/-- MODW by another word: the one word of the remainder (44_divide.md R193). -/
theorem exec_modw_of_ne_zero (hd : d ≠ 0) :
    exec (.modw rd rs1 d) s =
      .next (s.afterDivide rd [BitVec.ofNat 64 (mag a % d.toNat)] (BitVec.ofNat 64 (mag a % d.toNat))) := by
  obtain ⟨-, hrem⟩ := divWalk_eq a d hd
  simp only [exec, execModw, perform_source_of_holds h, if_neg hd, cycle_writeRem, hrem]

end

theorem afterDivide_holds (s : State) (rd : Reg) (w : List Word) (r : Word) : (s.afterDivide rd w r).Holds rd w :=
  afterWrite_get_same s rd w

/-- Settles O46: the source check, then the divisor's, then the walk as a division. -/
theorem divwGivesQuotient : Obligations.DivwGivesQuotient := fun _ _ _ _ =>
  ⟨exec_of_invalid_source (List.mem_singleton_self _), fun _ h => ⟨exec_divw_of_eq_zero h, exec_divw_of_ne_zero h⟩⟩

/-- Settles O47: the quotient and the remainder are exact, so the laws are those of the division of numbers. -/
theorem divwResultLaws : Obligations.DivwResultLaws := by
  intro s rd rs1 d a h hd
  refine ⟨_, exec_divw_of_ne_zero h hd, by rw [afterDivide_status, afterWrite_lastResp], ?_⟩
  rw [afterDivide_holds, afterDivide_rem, mag_wordsN_quotient, toNat_remainder hd]
  exact ⟨rfl, rfl, (Nat.div_add_mod' _ _).symm, Nat.mod_lt _ (toNat_pos_of_ne_zero hd), length_wordsN _ _⟩

/-- Settles O48: as for DIVW, with the remainder as the one word written. -/
theorem modwGivesRemainder : Obligations.ModwGivesRemainder := fun _ _ _ _ =>
  ⟨exec_of_invalid_source (List.mem_singleton_self _), fun _ h => ⟨exec_modw_of_eq_zero h, exec_modw_of_ne_zero h⟩⟩

/-- Settles O49: MODW and DIVW leave the same exact remainder; modulo 2^64 - 1 it is that of the sum of
the words, which the kernel evaluates to 1 for `[1, 0]`. -/
theorem modwResultLaws : Obligations.ModwResultLaws := by
  intro s rd rd' rs1 d a h hd
  refine ⟨_, _, exec_modw_of_ne_zero h hd, exec_divw_of_ne_zero h hd, afterDivide_holds _ _ _ _, toNat_remainder hd _, rfl,
    fun hmax => ?_⟩
  have hsum : mag a % d.toNat = (a.map BitVec.toNat).sum % (2 ^ 64 - 1) := by
    rw [hmax]
    exact mag_modEq_sum a
  rw [hsum]
  refine ⟨afterDivide_holds _ _ _ _, ?_⟩
  rintro rfl
  exact afterDivide_holds _ _ _ _

end Sys2Proof.Machine
end

section
/-! PROOFS. The normalizer and the commands for which leading zero words do not count (45_normalize.md R210, R211): two states
that differ in the leading zero words of their registers only give such a command the same effect. -/

namespace Sys2Proof.Machine

/-- Settles O50: the source check is the only one, and the laws are those of `trim`. -/
theorem normTrims : Obligations.NormTrims := fun _ _ _ =>
  ⟨exec_of_invalid_source (List.mem_singleton_self _), fun a h => ⟨exec_norm_of_holds h, length_trim_le a, mag_trim a⟩⟩

/-! ### Sequences that differ in leading zero words only -/

theorem trim_trim (w : List Word) : trim (trim w) = trim w := by
  by_cases h : w = []
  · rw [h]; rfl
  · exact trim_of_normalized (normalized_trim h)

/-- Words enough for a value, one more or one less, make the same trimmed sequence, unless there are none. -/
theorem trim_wordsN_eq {m n v : Nat} (hm : v < 2 ^ (64 * m)) (hn : v < 2 ^ (64 * n)) (hzero : m = 0 ↔ n = 0) :
    trim (wordsN m v) = trim (wordsN n v) := by
  by_cases h : m = 0
  · rw [h, hzero.mp h]
  · have hne {k : Nat} (hk : k ≠ 0) : wordsN k v ≠ [] :=
      List.ne_nil_of_length_pos (by rw [length_wordsN]; exact Nat.pos_of_ne_zero hk)
    refine trim_eq_of_mag_eq (hne h) (hne fun e => h (hzero.mpr e)) ?_
    rw [mag_wordsN, mag_wordsN, Nat.mod_eq_of_lt hm, Nat.mod_eq_of_lt hn]

section

variable {a a' b b' : List Word} (ha : trim a = trim a')
include ha

theorem mag_eq_of_trim_eq : mag a = mag a' := by rw [← mag_trim a, ha, mag_trim]

theorem length_eq_zero_iff_of_trim_eq : a.length = 0 ↔ a'.length = 0 := by
  have trim_eq_nil_iff (w : List Word) : trim w = [] ↔ w = [] :=
    ⟨fun h => by_contra fun hw => trim_ne_nil hw h, fun h => by rw [h]; rfl⟩
  rw [List.length_eq_zero_iff, List.length_eq_zero_iff, ← trim_eq_nil_iff, ha, trim_eq_nil_iff]

theorem lw_eq_of_trim_eq (i : Nat) : lw a i = lw a' i := by
  rw [lw_eq_digit, lw_eq_digit, mag_eq_of_trim_eq ha]

theorem remainder_eq_of_trim_eq {d : Word} (hd : d ≠ 0) : (divWalk a d).2 = (divWalk a' d).2 := by
  rw [(divWalk_eq a d hd).2, (divWalk_eq a' d hd).2, mag_eq_of_trim_eq ha]

variable (hb : trim b = trim b')
include hb

theorem cmpWords_eq_of_trim_eq : cmpWords a b = cmpWords a' b' := by
  rw [cmpComparesMagnitudes, cmpComparesMagnitudes, mag_eq_of_trim_eq ha, mag_eq_of_trim_eq hb]

/-- The differences, each at the length of its receiver, are the same but for leading zero words (41_add_sub.md R133). -/
theorem trim_difference_eq_of_trim_eq :
    trim (wordsN a.length (mag a - mag b)) = trim (wordsN a'.length (mag a' - mag b')) := by
  have hlt (w : List Word) : mag w - mag b < 2 ^ (64 * w.length) := lt_of_le_of_lt (Nat.sub_le _ _) (mag_lt w)
  have hmag := mag_eq_of_trim_eq ha
  rw [← hmag, ← mag_eq_of_trim_eq hb]
  exact trim_wordsN_eq (hlt a) (hmag ▸ hlt a') (length_eq_zero_iff_of_trim_eq ha)

/-- The product is normalized, so leading zero words of its operands leave no trace (43_multiply.md R180). -/
theorem mulWords_eq_of_trim_eq : mulWords a b = mulWords a' b' := by
  have hza := length_eq_zero_iff_of_trim_eq ha
  have hzb := length_eq_zero_iff_of_trim_eq hb
  have hmag : mag a * mag b = mag a' * mag b' := by rw [mag_eq_of_trim_eq ha, mag_eq_of_trim_eq hb]
  rw [mulWords_eq, mulWords_eq, ← hmag]
  exact trim_wordsN_eq (mag_mul_lt a b) (hmag ▸ mag_mul_lt a' b') (by omega)

end

/-! ### States that differ in leading zero words only -/

/-- Two registers that differ in leading zero words only. -/
def VReg.SameTrimmed (x y : VReg) : Prop := trim x.words = trim y.words ∧ x.valid = y.valid

/-- Two states that differ in the leading zero words of their registers only. -/
structure SameTrimmed (s t : State) : Prop where
  rem : s.rem = t.rem
  status : s.status = t.status
  response : s.response = t.response
  inputs : s.inputs = t.inputs
  regs : ∀ r : Reg, s.v[r].SameTrimmed t.v[r]

namespace SameTrimmed

variable {s t : State}

theorem refl (s : State) : SameTrimmed s s := ⟨rfl, rfl, rfl, rfl, fun _ => ⟨rfl, rfl⟩⟩

/-- Normalizing a source leaves such a state. -/
theorem trimSource (h : SameTrimmed s t) (r : Reg) : SameTrimmed s (t.trimSource r) := by
  refine { h with regs := fun q => ?_ }
  obtain ⟨hwords, hvalid⟩ := h.regs q
  refine ⟨?_, by rw [trimSource_valid, hvalid]⟩
  rw [trimSource_get]
  split
  · rw [trim_trim, hwords]
  · exact hwords

theorem capacity_eq (h : SameTrimmed s t) : s.capacity = t.capacity := by
  rw [State.capacity, State.capacity, h.status]

theorem statusWord_eq (h : SameTrimmed s t) : s.statusWord = t.statusWord := by
  have hvalid : s.validBits = t.validBits := congrArg BitVec.ofFnLE (funext fun r => (h.regs r).2)
  rw [State.statusWord, State.statusWord, hvalid, h.status]

theorem within_eq (h : SameTrimmed s t) (n : Nat) (k : Unit → Effect) : s.within n k = t.within n k := by
  rw [State.within, State.within, h.capacity_eq]

/-- A command to which leading zero words do not count goes on alike from both states. -/
theorem source_eq (h : SameTrimmed s t) (r : Reg) {k k' : List Word → Effect}
    (hk : ∀ a a', trim a = trim a' → k a = k' a') : s.source r k = t.source r k' := by
  obtain ⟨hwords, hvalid⟩ := h.regs r
  cases hv : s.v[r].valid with
  | false => rw [source_of_invalid hv, source_of_invalid (hvalid ▸ hv)]
  | true => rw [source_of_holds (holds_of_valid hv), source_of_holds (holds_of_valid (hvalid ▸ hv)), hk _ _ hwords]

theorem writeReg (h : SameTrimmed s t) (r : Reg) {w w' : List Word} (hw : trim w = trim w') :
    SameTrimmed (s.writeReg r w) (t.writeReg r w') := by
  refine { h with regs := fun q => ?_ }
  rw [writeReg_get, writeReg_get]
  split
  · exact ⟨hw, rfl⟩
  · exact h.regs q

theorem respond (h : SameTrimmed s t) (c : Resp) (o : Word) : SameTrimmed (s.respond c o) (t.respond c o) :=
  { h with status := congrArg (·.after c) h.status, response := rfl }

theorem apply (h : SameTrimmed s t) (w : Writes) : SameTrimmed (s.apply w) (t.apply w) := by
  obtain ⟨reg, m, o⟩ := w
  cases reg with
  | none => exact { h with rem := congrArg m.getD h.rem }
  | some p => exact { h.writeReg p.1 rfl with rem := congrArg m.getD h.rem }

theorem cycle (h : SameTrimmed s t) (e : Effect) : SameTrimmed (s.cycle e) (t.cycle e) := by
  cases e with
  | raise c => exact h.respond _ _
  | commit w => exact (h.apply w).respond _ _

end SameTrimmed

/-! ### The same result from both states (45_normalize.md R211) -/

/-- Next states that differ in leading zero words only are the same result up to leading zero words. -/
theorem sameResult_of_sameTrimmed {i : Instr} {s s' t u : State} (h : SameTrimmed t u) (ht : exec i s = .next t)
    (hu : exec i s' = .next u) : SameResult VReg.SameTrimmed i s s' :=
  ⟨t, u, ht, hu, h.response, h.statusWord_eq, h.rem, fun _ rd _ => h.regs rd⟩

/-- An allowed effect that completes the command writes its destination whole, whatever it held. -/
theorem cycle_get_dest_eq {i : Instr} {e : Effect} (allowed : AllowedEffect i e) {s : State}
    (hok : (s.cycle e).status.lastResp = .ok) (t : State) {rd : Reg} (hrd : rd ∈ i.dest) :
    (s.cycle e).v[rd] = (t.cycle e).v[rd] := by
  cases e with
  | raise c => cases hok
  | commit w =>
    obtain ⟨hreg, -, -⟩ := allowed
    obtain ⟨⟨q, ws⟩, hw, rfl⟩ := Option.map_eq_some_iff.mp (hreg.trans hrd)
    have hwrite (x : State) : (x.cycle (.commit w)).v[q] = ⟨ws, true⟩ := by
      simp [State.cycle, State.respond, State.apply, hw, State.writeReg]
    exact (hwrite s).trans (hwrite t).symm

section

variable {s t : State} (h : SameTrimmed s t)
include h

/-- The same effect on both states is the same result. -/
theorem sameResult_of_effect_eq {i : Instr} {e e' : Effect} (he : e = e') (allowed : AllowedEffect i e)
    (hs : exec i s = s.perform e) (ht : exec i t = t.perform e') : SameResult Eq i s t := by
  subst he
  have hnext := h.cycle e
  exact ⟨s.cycle e, t.cycle e, hs, ht, hnext.response, hnext.statusWord_eq, hnext.rem,
    fun hok _ hrd => cycle_get_dest_eq allowed hok t hrd⟩

theorem sameResult_mul (rd rs1 rs2 : Reg) : SameResult Eq (.mul rd rs1 rs2) s t := by
  refine sameResult_of_effect_eq h (h.source_eq rs1 fun a a' ha => h.source_eq rs2 fun b b' hb => ?_)
    (allowed_source fun a => allowed_source fun b => ?_) rfl rfl
  · simp only [mulWords_eq_of_trim_eq ha hb, h.within_eq]
  · exact allowed_within ⟨rfl, rfl, fun _ => rfl⟩

theorem sameResult_modw (rd rs1 : Reg) (imm : Word) : SameResult Eq (.modw rd rs1 imm) s t := by
  refine sameResult_of_effect_eq h (h.source_eq rs1 fun a a' ha => ?_) (allowed_source fun a => ?_) rfl rfl
  · split
    · rfl
    · next hd => rw [remainder_eq_of_trim_eq ha hd]
  · split
    · exact fun hc => by cases hc
    · exact ⟨rfl, rfl, fun _ => rfl⟩

theorem sameResult_norm (rd rs1 : Reg) : SameResult Eq (.norm rd rs1) s t :=
  sameResult_of_effect_eq h (h.source_eq rs1 fun _ _ ha => congrArg (Effect.write rd) ha)
    (allowed_source fun _ => ⟨rfl, rfl, fun _ => rfl⟩) rfl rfl

theorem sameResult_rdw (rs1 : Reg) (imm : Word) : SameResult Eq (.rdw rs1 imm) s t :=
  sameResult_of_effect_eq h (h.source_eq rs1 fun _ _ ha => congrArg Effect.answer (lw_eq_of_trim_eq ha imm.toNat))
    (allowed_source fun _ => ⟨rfl, rfl, fun hread => by cases hread⟩) rfl rfl

/-- SUB decides alike; the two differences have the lengths of their receivers (41_add_sub.md R133). -/
theorem sameResult_sub (rd rs1 rs2 : Reg) : SameResult VReg.SameTrimmed (.sub rd rs1 rs2) s t := by
  obtain ⟨hwords1, hvalid1⟩ := h.regs rs1
  obtain ⟨hwords2, hvalid2⟩ := h.regs rs2
  by_cases hv : s.v[rs1].valid = false ∨ s.v[rs2].valid = false
  · exact sameResult_of_sameTrimmed (h.cycle (.raise .uninit)) (exec_of_invalid_sources rfl hv)
      (exec_of_invalid_sources rfl (by rwa [← hvalid1, ← hvalid2]))
  · obtain ⟨hv1, hv2⟩ : s.v[rs1].valid = true ∧ s.v[rs2].valid = true := by simpa using hv
    have ha := holds_of_valid hv1
    have hb := holds_of_valid hv2
    have ha' := holds_of_valid (hvalid1 ▸ hv1)
    have hb' := holds_of_valid (hvalid2 ▸ hv2)
    have hmag1 := mag_eq_of_trim_eq hwords1
    have hmag2 := mag_eq_of_trim_eq hwords2
    rcases lt_or_ge (mag s.v[rs1].words) (mag s.v[rs2].words) with hlt | hge
    · exact sameResult_of_sameTrimmed (h.cycle (.raise .subUnderflow)) (exec_sub_of_lt ha hb hlt)
        (exec_sub_of_lt ha' hb' (by rwa [← hmag1, ← hmag2]))
    · have hdiff := trim_difference_eq_of_trim_eq hwords1 hwords2
      exact sameResult_of_sameTrimmed ((h.writeReg rd hdiff).respond .ok 0) (exec_sub_of_le ha hb hge)
        (exec_sub_of_le ha' hb' (by rwa [← hmag1, ← hmag2]))

end

/-- Settles O51: normalizing the sources leaves a state that differs in leading zero words only. -/
theorem leadingZerosDoNotCount : Obligations.LeadingZerosDoNotCount := by
  refine ⟨fun s rd rs1 rs2 imm => ?_, fun a b d i _ _ => ?_⟩
  · have hone : SameTrimmed s (s.trimSource rs1) := (SameTrimmed.refl s).trimSource rs1
    have htwo : SameTrimmed s ((s.trimSource rs1).trimSource rs2) := hone.trimSource rs2
    exact ⟨sameResult_mul htwo rd rs1 rs2, sameResult_modw hone rd rs1 imm, sameResult_norm hone rd rs1,
      sameResult_rdw hone rs1 imm, sameResult_sub htwo rd rs1 rs2⟩
  · have ha := trim_trim a
    have hb := trim_trim b
    exact ⟨mulWords_eq_of_trim_eq ha hb, remainder_eq_of_trim_eq ha, ha, lw_eq_of_trim_eq ha i,
      cmpWords_eq_of_trim_eq ha hb⟩

end Sys2Proof.Machine
end

section
/-! PROOFS. The command cycle and the failures (60_exceptions.md R220 to R231): that every step answers, what a cycle leaves
in STATUS and in the response, and for which cause a command fails on a state. -/

namespace Sys2Proof.Machine

/-! ### Every step and every command answers -/

/-- Settles O9: decoding comes before anything else. -/
theorem illegalWordFailsFirst : Obligations.IllegalWordFailsFirst := fun _ _ _ _ => step_of_illegal

/-- Settles O15, by what the host does next; a legal command is one command cycle. -/
theorem everyStepAnswers : Obligations.EveryStepAnswers := by
  intro s
  match hi : s.inputs with
  | [] => exact ⟨_, step_of_idle hi⟩
  | .reset _ :: _ => exact ⟨_, step_of_reset hi⟩
  | .command q :: rest =>
    cases hd : decode q.cmd q.imm with
    | error why => exact ⟨_, step_of_illegal hi hd⟩
    | ok i =>
      obtain ⟨e, he, -⟩ := exec_shape i { s with inputs := rest }
      exact ⟨_, (step_of_command hi hd).trans he⟩

/-! ### The command cycle (60_exceptions.md R229) -/

/-- The state a command leaves is that of one cycle over an allowed effect. -/
theorem exists_cycle_of_exec {i : Instr} {s t : State} (h : exec i s = .next t) :
    ∃ e, AllowedEffect i e ∧ t = s.cycle e := by
  obtain ⟨e, he, allowed⟩ := exec_shape i s
  rw [he] at h
  injection h with h
  exact ⟨e, allowed, h.symm⟩

@[simp] theorem cycle_commit_response (s : State) (w : Writes) :
    (s.cycle (.commit w)).response = some ⟨.ok, w.out⟩ := rfl

@[simp] theorem cycle_commit_status (s : State) (w : Writes) :
    (s.cycle (.commit w)).status = s.status.after .ok := by
  simp [State.cycle]

/-- Settles O16: a cycle either fails, and writes STATUS and the response alone, or commits with the code OK. -/
theorem commandCycleUpdatesStatus : Obligations.CommandCycleUpdatesStatus := by
  intro i s t ht
  obtain ⟨e, -, rfl⟩ := exists_cycle_of_exec ht
  cases e with
  | raise c => exact ⟨⟨0, rfl⟩, fun _ => ⟨rfl, rfl, rfl, rfl, rfl⟩, fun hok => absurd hok (by simp), rfl, rfl⟩
  | commit w =>
    exact ⟨⟨w.out, by simp⟩, fun hfail => absurd (by simp) hfail, fun _ => by simp, cycle_maxw _ _, cycle_inputs _ _⟩

/-- Settles O18: a failure answers 0, and an allowed effect sets `out` for a read command only. -/
theorem outIsZeroUnlessRead : Obligations.OutIsZeroUnlessRead := by
  intro i s t ht
  obtain ⟨e, allowed, rfl⟩ := exists_cycle_of_exec ht
  cases e with
  | raise c => exact ⟨0, rfl, fun _ => rfl, fun _ => rfl⟩
  | commit w =>
    obtain ⟨-, -, hout⟩ := allowed
    exact ⟨w.out, by simp, hout, fun hfail => absurd (by simp) hfail⟩

/-! ### For which cause a command fails -/

/-- The condition of each cause (60_exceptions.md R222 to R226). No command fails with ILLEGAL, the answer to a word that
decodes to none. -/
def FailsWith (i : Instr) (s : State) : Cause → Prop
  | .illegal => False
  | .uninit => ∃ r ∈ i.sources, s.v[r].valid = false
  | .subUnderflow => ∃ rd rs1 rs2 a b, i = .sub rd rs1 rs2 ∧ s.Holds rs1 a ∧ s.Holds rs2 b ∧ mag a < mag b
  | .divZero => ∃ rd rs1 a, (i = .divw rd rs1 0 ∨ i = .modw rd rs1 0) ∧ s.Holds rs1 a
  | .capacity => CapacityExceeded s i

/-- CAPACITY wherever the result is too long (60_exceptions.md R226). -/
theorem exec_of_capacityExceeded {i : Instr} {s : State} (h : CapacityExceeded s i) :
    exec i s = .next (s.afterFail .capacity) := by
  cases i with
  | appw _ imm =>
    obtain ⟨_, hw, hfull⟩ := h
    exact exec_appw_of_lt hw hfull imm
  | add =>
    obtain ⟨_, _, ha, hb, hge, hfull⟩ := h
    exact exec_add_of_full ha hb hge hfull
  | shlx =>
    obtain ⟨_, ha, hfull⟩ := h
    exact exec_shlx_of_lt ha hfull
  | mul =>
    obtain ⟨_, _, ha, hb, hfull⟩ := h
    exact exec_mul_of_lt ha hb hfull
  | nop | ldi | mov | rdw | rdlen | rdstat | rdrem | sub | shl | shr | cshl | cshr | divw | modw | norm => exact h.elim

/-- A command whose condition for a cause is met fails with that cause. -/
theorem exec_of_failsWith {i : Instr} {s : State} {c : Cause} (h : FailsWith i s c) :
    exec i s = .next (s.afterFail c) := by
  cases c with
  | illegal => exact h.elim
  | uninit =>
    obtain ⟨r, hr, hinvalid⟩ := h
    exact exec_of_invalid_source hr hinvalid
  | subUnderflow =>
    obtain ⟨rd, rs1, rs2, a, b, rfl, ha, hb, hlt⟩ := h
    exact exec_sub_of_lt ha hb hlt
  | divZero =>
    obtain ⟨rd, rs1, a, rfl | rfl, ha⟩ := h
    · exact exec_divw_of_eq_zero ha rfl
    · exact exec_modw_of_eq_zero ha rfl
  | capacity => exact exec_of_capacityExceeded h

/-- The command completes with the code OK. -/
def Completes (i : Instr) (s : State) : Prop := ∃ t, exec i s = .next t ∧ t.status.lastResp = .ok

/-- With every source valid, a command fails by its own check or completes (60_exceptions.md R228). -/
theorem failsWith_or_completes_of_valid {i : Instr} {s : State} (hv : ∀ r ∈ i.sources, s.Holds r s.v[r].words) :
    (∃ c, FailsWith i s c) ∨ Completes i s := by
  cases i with
  | nop | ldi | rdstat | rdrem => exact .inr ⟨_, rfl, rfl⟩
  | mov | rdw | rdlen | shl | shr | cshl | cshr | norm =>
    have ha := hv _ (List.mem_singleton_self _)
    exact .inr ⟨_, perform_source_of_holds ha _, rfl⟩
  | appw _ imm =>
    have ha := hv _ (List.mem_singleton_self _)
    exact (Nat.lt_or_ge _ _).imp (fun hfull => ⟨.capacity, _, ha, hfull⟩)
      fun hfit => ⟨_, exec_appw_of_le ha hfit imm, rfl⟩
  | shlx =>
    have ha := hv _ (List.mem_singleton_self _)
    exact (Nat.lt_or_ge _ _).imp (fun hfull => ⟨.capacity, _, ha, hfull⟩) fun hfit => ⟨_, exec_shlx_of_le ha hfit, rfl⟩
  | divw _ _ imm =>
    have ha := hv _ (List.mem_singleton_self _)
    exact (eq_or_ne imm 0).imp (fun hd => ⟨.divZero, _, _, _, .inl (by rw [hd]), ha⟩)
      fun hd => ⟨_, exec_divw_of_ne_zero ha hd, rfl⟩
  | modw _ _ imm =>
    have ha := hv _ (List.mem_singleton_self _)
    exact (eq_or_ne imm 0).imp (fun hd => ⟨.divZero, _, _, _, .inr (by rw [hd]), ha⟩)
      fun hd => ⟨_, exec_modw_of_ne_zero ha hd, rfl⟩
  | add _ rs1 rs2 =>
    have ha := hv rs1 (List.mem_pair.mpr (.inl rfl))
    have hb := hv rs2 (List.mem_pair.mpr (.inr rfl))
    rcases lt_or_ge (mag s.v[rs1].words + mag s.v[rs2].words) _ with hlt | hge
    · exact .inr ⟨_, exec_add_of_lt ha hb hlt, rfl⟩
    · exact (Nat.lt_or_ge _ _).imp (fun hfull => ⟨.capacity, _, _, ha, hb, hge, hfull⟩)
        fun hfit => ⟨_, exec_add_of_ge ha hb hge hfit, rfl⟩
  | sub _ rs1 rs2 =>
    have ha := hv rs1 (List.mem_pair.mpr (.inl rfl))
    have hb := hv rs2 (List.mem_pair.mpr (.inr rfl))
    exact (Nat.lt_or_ge _ _).imp (fun hlt => ⟨.subUnderflow, _, _, _, _, _, rfl, ha, hb, hlt⟩)
      fun hge => ⟨_, exec_sub_of_le ha hb hge, rfl⟩
  | mul _ rs1 rs2 =>
    have ha := hv rs1 (List.mem_pair.mpr (.inl rfl))
    have hb := hv rs2 (List.mem_pair.mpr (.inr rfl))
    exact (Nat.lt_or_ge _ _).imp (fun hfull => ⟨.capacity, _, _, ha, hb, hfull⟩)
      fun hfit => ⟨_, exec_mul_of_le ha hb hfit, rfl⟩

/-- A command that does not complete meets the condition of some cause. -/
theorem failsWith_or_completes (i : Instr) (s : State) : (∃ c, FailsWith i s c) ∨ Completes i s := by
  by_cases hu : FailsWith i s .uninit
  · exact .inl ⟨.uninit, hu⟩
  · refine failsWith_or_completes_of_valid fun r hr => holds_of_valid ?_
    by_contra hinvalid
    exact hu ⟨r, hr, by simpa using hinvalid⟩

/-- A command fails with a cause exactly when the cause's condition is met: the code in LAST_RESP tells the cause, so the
conditions shut one another out. -/
theorem exec_eq_afterFail_iff (i : Instr) (s : State) (c : Cause) :
    exec i s = .next (s.afterFail c) ↔ FailsWith i s c := by
  refine ⟨fun h => ?_, exec_of_failsWith⟩
  rcases failsWith_or_completes i s with ⟨d, hd⟩ | ⟨t, ht, hok⟩
  · have hstate : s.afterFail d = s.afterFail c := by simpa [exec_of_failsWith hd] using h
    have hcode : Resp.failed d = .failed c := congrArg (·.status.lastResp) hstate
    cases hcode
    exact hd
  · obtain rfl : t = s.afterFail c := by simpa [ht] using h
    cases hok

/-- Settles O19: the condition of UNINIT. -/
theorem uninitExactlyOnInvalidSource : Obligations.UninitExactlyOnInvalidSource := fun i s =>
  exec_eq_afterFail_iff i s .uninit

/-- Settles O20: the conditions of SUB_UNDERFLOW and DIV_ZERO. -/
theorem underflowAndDivZeroExactly : Obligations.UnderflowAndDivZeroExactly := fun i s =>
  ⟨exec_eq_afterFail_iff i s .subUnderflow, exec_eq_afterFail_iff i s .divZero⟩

/-- Settles O21: the condition of CAPACITY. -/
theorem capacityExactlyWhenTooLong : Obligations.CapacityExactlyWhenTooLong := fun i s =>
  exec_eq_afterFail_iff i s .capacity

end Sys2Proof.Machine
end

section
/-! PROOFS. Reset and hazards (70_reset_and_hazards.md R260, R261; 60_exceptions.md R230): what the state after reset reads
as, and that no step but a reset clears what is sticky. -/

namespace Sys2Proof.Machine

/-! ### What no command cycle clears (60_exceptions.md R230, 10_state.md R23) -/

/-- A cycle updates STATUS with the code it answers, which leaves FAULT and FIRST_ERR once FAULT is 1. -/
theorem cycle_fault_sticky (s : State) (e : Effect) (h : s.status.fault = true) :
    (s.cycle e).status.fault = true ∧ (s.cycle e).status.firstErr = s.status.firstErr := by
  cases e with
  | raise c => exact after_sticky s.status (.failed c) h
  | commit w =>
    rw [cycle_commit_status]
    exact after_sticky s.status .ok h

theorem writeReg_valid_of_valid {s : State} {r : Reg} (h : s.v[r].valid = true) (q : Reg) (w : List Word) :
    (s.writeReg q w).v[r].valid = true := by
  rw [writeReg_get]
  split
  · rfl
  · exact h

theorem cycle_valid_of_valid (s : State) (e : Effect) (r : Reg) (h : s.v[r].valid = true) :
    (s.cycle e).v[r].valid = true := by
  match e with
  | .raise _ | .commit ⟨none, _, _⟩ => exact h
  | .commit ⟨some (q, w), _, _⟩ => exact writeReg_valid_of_valid h q w

/-- A step that takes no reset holds the state or runs one command cycle; an illegal word's is that of ILLEGAL. -/
theorem eq_or_exists_cycle_of_step {s t : State} (hr : ∀ abandoned rest, s.inputs ≠ .reset abandoned :: rest)
    (h : step s = .next t) : t = s ∨ ∃ rest e, t = { s with inputs := rest }.cycle e := by
  rcases step_cases h with ⟨-, ht⟩ | ⟨a, rest, hi, -⟩ | ⟨_, rest, _, -, -, ht⟩ | ⟨_, rest, _, -, -, hx⟩
  · exact .inl ht
  · exact absurd hi (hr a rest)
  · exact .inr ⟨rest, .raise .illegal, ht⟩
  · obtain ⟨e, -, ht⟩ := exists_cycle_of_exec hx
    exact .inr ⟨rest, e, ht⟩

/-- Settles O12: reset replaces the state, and a step without it is a pause or one command cycle, which clears nothing
sticky. -/
theorem resetAloneClearsStickyState : Obligations.ResetAloneClearsStickyState := by
  refine ⟨fun _ _ _ => step_of_reset, fun s t hr ht => ?_⟩
  rcases eq_or_exists_cycle_of_step hr ht with rfl | ⟨rest, e, rfl⟩
  · exact ⟨fun hf => ⟨hf, rfl⟩, fun _ hv => hv⟩
  · exact ⟨cycle_fault_sticky { s with inputs := rest } e, cycle_valid_of_valid { s with inputs := rest } e⟩

/-! ### The state after reset (70_reset_and_hazards.md R261) -/

theorem reset_valid (r : Reg) : State.reset.v[r].valid = false := by rw [reset_get]; rfl

theorem reset_validBits : State.reset.validBits = 0 := by
  refine BitVec.eq_of_getLsbD_eq fun i hi => ?_
  rw [validBits_getLsbD State.reset ⟨i, hi⟩, reset_valid]
  simp

/-- With every field below MAXW zero, STATUS is MAXW in the high half of the word. -/
theorem reset_statusWord : State.reset.statusWord = Config.maxw.setWidth 64 <<< 32 := by
  rw [State.statusWord, reset_validBits]
  refine BitVec.eq_of_toNat_eq ?_
  change (Config.maxw ++ 0#16 ++ 0#4 ++ 0#4 ++ 0#4 ++ 0#3 ++ 0#1).toNat = _
  have hmaxw := Config.maxw.isLt
  simp only [BitVec.toNat_append, BitVec.toNat_ofNat, BitVec.toNat_shiftLeft, BitVec.toNat_setWidth, Nat.shiftLeft_eq,
    Nat.zero_mod, Nat.or_zero]
  omega

/-- Settles O11: the values are those of `State.reset`, and every source of a command is a register that is not valid. -/
theorem resetLeavesTheStatedValues : Obligations.ResetLeavesTheStatedValues := by
  refine ⟨reset_valid, rfl, rfl, rfl, rfl, reset_validBits, rfl, reset_statusWord, fun i hi => ?_⟩
  obtain ⟨r, hr⟩ := List.exists_mem_of_ne_nil _ hi
  exact exec_of_invalid_source hr (reset_valid r)

end Sys2Proof.Machine
end

section
/-! PROOFS. The port beside the commands: the bytes of a port word on an integration's bus (20_memory.md R52), the pause
between commands (60_exceptions.md R240), and the invariant at reset (70_reset_and_hazards.md R261). -/

namespace Sys2Proof

/-! ### A number and its bytes -/

@[simp] theorem length_leBytes (n x : Nat) : (leBytes n x).length = n := by
  induction n generalizing x with
  | zero => rfl
  | succ n ih => simp [leBytes, ih]

/-- `n` bytes hold a number below `256 ^ n`, and of a larger one its remainder. -/
theorem ofLeBytes_leBytes (n x : Nat) : ofLeBytes (leBytes n x) = x % 256 ^ n := by
  induction n generalizing x with
  | zero => simp [leBytes, ofLeBytes, Nat.mod_one]
  | succ n ih =>
    calc ofLeBytes (leBytes (n + 1) x)
      _ = x % 256 + 256 * (x / 256 % 256 ^ n) := by simp [leBytes, ofLeBytes, ih]
      _ = x % 256 ^ (n + 1) := by rw [Nat.pow_succ', Nat.mod_mul]

/-! ### A port word on the bus (20_memory.md R52) -/

@[simp] theorem length_busBytes (order : ByteOrder) (n x : Nat) : (busBytes order n x).length = n := by
  cases order <;> simp [busBytes]

/-- Read in the order they were laid out in, the bytes give the same number whichever order that is. -/
theorem ofBusBytes_busBytes (order : ByteOrder) (n x : Nat) : ofBusBytes order (busBytes order n x) = x % 256 ^ n := by
  cases order with
  | little => exact ofLeBytes_leBytes n x
  | big => rw [ofBusBytes, busBytes, List.reverse_reverse, ofLeBytes_leBytes]

/-- A port word of `n` bytes comes back from the bus unchanged. -/
theorem ofNat_ofBusBytes_busBytes (order : ByteOrder) (n : Nat) (w : BitVec (8 * n)) :
    BitVec.ofNat (8 * n) (ofBusBytes order (busBytes order n w.toNat)) = w := by
  have hw : w.toNat < 256 ^ n := Nat.pow_mul 2 8 n ▸ w.isLt
  rw [ofBusBytes_busBytes, Nat.mod_eq_of_lt hw, BitVec.ofNat_toNat, BitVec.setWidth_eq]

end Sys2Proof

namespace Sys2Proof.Machine

/-- Settles O54: both port words come back from the bus, in either byte order. -/
theorem busByteOrderDoesNotMatter : Obligations.BusByteOrderDoesNotMatter := by
  intro order cmd imm
  have hlen : (busBytes order 4 cmd.toNat).length = 4 ∧ (busBytes order 8 imm.toNat).length = 8 :=
    ⟨length_busBytes order 4 _, length_busBytes order 8 _⟩
  have hcmd : BitVec.ofNat 32 (ofBusBytes order (busBytes order 4 cmd.toNat)) = cmd :=
    ofNat_ofBusBytes_busBytes order 4 cmd
  have himm : BitVec.ofNat 64 (ofBusBytes order (busBytes order 8 imm.toNat)) = imm :=
    ofNat_ofBusBytes_busBytes order 8 imm
  rw [decodeBus, if_pos hlen, hcmd, himm]

/-- Settles O10: with no input left the step is a pause. -/
theorem idleBlockHoldsState : Obligations.IdleBlockHoldsState := fun _ => step_of_idle

/-- Settles O14: a register holds 1 to MAXW words at reset, and STATUS is clear. -/
theorem resetHasInvariant : Obligations.ResetHasInvariant := reset_wf

end Sys2Proof.Machine
end
